-- ==== Sys2Proof/Word.lean ====
section
/-! DEFINITION. The word types of the block: 64-bit registers, DMEM words and binary64 values (00_scope.md R7, R13), and the
32-bit generator state (R7). A bit vector stands only for what the spec treats as bits; indices, lengths and lags are Nat (R9). -/

namespace Sys2Proof

/-- A 64-bit register, DMEM word or command word (00_scope.md R7). -/
abbrev Word := BitVec 64

/-- A u32: the state of the noise generator (00_scope.md R7, 10_state.md R63). -/
abbrev U32 := BitVec 32

/-- `v[lo+width-1 : lo]` as an unsigned integer (00_scope.md R8). -/
def Word.field (v : Word) (lo width : Nat) : Nat := v.toNat / 2 ^ lo % 2 ^ width

end Sys2Proof
end

