-- ==== Sys2Proof/Config.lean ====
section
/-! DEFINITION. What the spec leaves to the implementation (00_scope.md R6): the four elementary functions, as constants with no
body, and the legal values of DMEM_WORDS. -/

namespace Sys2Proof

/-- The parameter `exp64`: some total deterministic function of one binary64 operand (00_scope.md R6, R17). Log entry 4. -/
opaque Config.exp64 : Word → Word

/-- The parameter `log64` (00_scope.md R6, R17). Log entry 4. -/
opaque Config.log64 : Word → Word

/-- The parameter `sin64` (00_scope.md R6, R17). Log entry 4. -/
opaque Config.sin64 : Word → Word

/-- The parameter `cos64` (00_scope.md R6, R17). Log entry 4. -/
opaque Config.cos64 : Word → Word

/-- The reference value of the parameter DMEM_WORDS (00_scope.md R6). DESIGN CHOICE: State.reset takes it (log entry 3). -/
def Config.referenceDmemWords : Nat := 4096

/-- The legal values of DMEM_WORDS: "a power of two, 64 ≤ DMEM_WORDS ≤ 65536" (00_scope.md R6). -/
abbrev Config.LegalDmemWords (w : Nat) : Prop := 64 ≤ w ∧ w ≤ 65536 ∧ w = 2 ^ Nat.log2 w

end Sys2Proof
end

