-- ==== Sys2Proof/Machine/State.lean ====
section
/-! DEFINITION. The state of the block as plain data (10_state.md R68), the inputs still to come, the reasons a step can stop, and
the state right after reset (70_reset_and_hazards.md R270). -/

namespace Sys2Proof.Machine

open Sys2Proof

/-- DMEM: (byte address, byte) cells in strictly rising address order, word `i` at bytes `8i .. 8i+7` (10_state.md R41;
20_memory.md R102). An unlisted byte holds no value: its word is unwritten (10_state.md R42). DESIGN CHOICE, log entry 1. -/
abbrev Mem := List Host.Cell

/-- The four operand registers ARG0..ARG3 (10_state.md R59). -/
structure Args where
  arg0 : Word
  arg1 : Word
  arg2 : Word
  arg3 : Word
deriving DecidableEq, Repr

/-- The hidden command latch LAT (10_state.md R66). -/
structure Lat where
  cmd  : Word
  arg  : Args
  prng : U32
deriving DecidableEq, Repr

/-- The response of a host transaction (20_memory.md R90). -/
inductive Resp where
  | okay
  | error
deriving DecidableEq, Repr

/-- What the port answers: `HREAD(off) -> (data, resp)` and `HWRITE(off, data) -> resp` (20_memory.md R90). -/
inductive Reply where
  | read (data : Word) (resp : Resp)
  | write (resp : Resp)
deriving DecidableEq, Repr

/-- One input of the block, in the total order of 20_memory.md R109. Log entry 6. -/
inductive Event where
  /-- `HREAD(off)` with the transaction's size in bytes (20_memory.md R90, R94). -/
  | hread (size : Nat) (off : BitVec 20)
  /-- `HWRITE(off, data)` with the transaction's size in bytes. -/
  | hwrite (size : Nat) (off : BitVec 20) (data : Word)
  /-- The schedule gives the core its turn: a completion, if one is enabled (60_exceptions.md R242; 70_reset_and_hazards.md R285). -/
  | coreTurn
  /-- The reset input `rst` is asserted (70_reset_and_hazards.md R270). -/
  | rst
deriving DecidableEq, Repr

/-- The state. The first fields are exactly the record of 10_state.md R68; the last three are the model's own (INVENTORY.md). -/
structure State where
  dmem    : Mem
  ctrlIe  : Bool
  busy    : Bool
  done    : Bool
  err     : Bool
  ovr     : Bool
  voiced  : Bool
  errcode : BitVec 8
  cmd     : Word
  arg     : Args
  result0 : Word
  result1 : Word
  prng    : U32
  lat     : Lat
  /-- The implementation parameter DMEM_WORDS (00_scope.md R6); no step writes it. Log entry 3. -/
  dmemWords : Nat
  /-- The inputs still to come, the next one first. Log entry 6. -/
  schedule  : List Event
  /-- The port's answer to the last host transaction. Log entry 8. -/
  reply     : Option Reply
deriving DecidableEq, Repr

/-- Why a run stops. -/
inductive Fault where
  /-- UNINIT: a host read or a command read a DMEM word not written since reset. Raised by `hread` and by the commands that read
  DMEM (LPC, PCONV, YIN). "A model treats both as a fault" (20_memory.md R115; 10_state.md R42). SAFE: a real block goes on with a
  value no source gives. Log entry 2. -/
  | uninit
deriving DecidableEq, Repr

/-- Why a step is refused. -/
inductive Refusal where
  /-- A command without a meaning yet. Raised by no arm of `exec` now: every command has its meaning. SAFE: it only stops. -/
  | notModelled (mnemonic : String)
deriving DecidableEq, Repr

/-- ARG0..ARG3 after reset (10_state.md R59). -/
def Args.reset : Args := { arg0 := 0, arg1 := 0, arg2 := 0, arg3 := 0 }

/-- LAT after reset: the spec leaves it unspecified (10_state.md R66). DESIGN CHOICE: zero, UNSAFE, log entry 5. -/
def Lat.reset : Lat := { cmd := 0, arg := Args.reset, prng := 0 }

/-- The block right after reset (70_reset_and_hazards.md R270, R272), with the reference DMEM_WORDS (00_scope.md R6), no input to
come and no answer given (log entries 3, 6, 8). -/
def State.reset : State where
  dmem    := []
  ctrlIe  := false
  busy    := false
  done    := false
  err     := false
  ovr     := false
  voiced  := false
  errcode := 0
  cmd     := 0
  arg     := Args.reset
  result0 := 0
  result1 := 0
  prng    := 0
  lat     := Lat.reset
  dmemWords := Config.referenceDmemWords
  schedule  := []
  reply     := none

end Sys2Proof.Machine
end

