-- ==== Sys2Proof/Machine/Float.lean ====
section
/-! DEFINITION. Binary64 arithmetic (00_scope.md R13-R22): the primitives on 64-bit words, each computing its exact result on
integers and rounding it once to nearest even. A finite binary64 is an integer multiple of 2^-1074, the unit of its magnitude here.
The IEEE 754 facts the spec takes from general knowledge are PRESUMED from the standard (log entry 10). -/

namespace Sys2Proof.Machine

open Sys2Proof

/-- A binary64 value is its word (00_scope.md R13: `f64(w)` and `bits(x)` change no bit). -/
abbrev F64 := Word

/-! ### Constants (00_scope.md R18) -/

/-- `PI`, the binary64 nearest π. -/
def f64Pi : F64 := 0x400921FB54442D18#64
/-- `NEG_PI`. -/
def f64NegPi : F64 := 0xC00921FB54442D18#64
/-- `TWO_PI`. -/
def f64TwoPi : F64 := 0x401921FB54442D18#64
/-- `EPS_DEN`, the binary64 nearest 1e-12. -/
def f64EpsDen : F64 := 0x3D719799812DEA11#64
/-- `TWO32`, 2^32. -/
def f64Two32 : F64 := 0x41F0000000000000#64
/-- `1.0`. -/
def f64One : F64 := 0x3FF0000000000000#64
/-- `2.0`. -/
def f64Two : F64 := 0x4000000000000000#64
/-- `-2.0`. -/
def f64NegTwo : F64 := 0xC000000000000000#64
/-- `+0.0`. -/
def f64Zero : F64 := 0#64
/-- The canonical NaN (00_scope.md R16). -/
def f64NaN : F64 := 0x7FF8000000000000#64

/-! ### Fields and classes (00_scope.md R13) -/

/-- The sign, bit 63. -/
def fsign (x : F64) : Bool := x.field 63 1 == 1
/-- The biased exponent, bits 62:52. -/
def fexpo (x : F64) : Nat := x.field 52 11
/-- The fraction, bits 51:0. -/
def ffrac (x : F64) : Nat := x.field 0 52

/-- The value is a NaN. -/
def isNaN (x : F64) : Bool := fexpo x == 2047 && ffrac x != 0
/-- The value is an infinity. -/
def isInf (x : F64) : Bool := fexpo x == 2047 && ffrac x == 0
/-- `isfinite(x)` (00_scope.md R15). -/
def isFinite (x : F64) : Bool := fexpo x != 2047

/-- `canon`: every NaN becomes the canonical one (00_scope.md R16). -/
def canon (x : F64) : F64 := if isNaN x then f64NaN else x

/-- How many units of 2^-1074 make 1.0. (Irreducible, so that no tactic writes the number out.) -/
@[irreducible] def unitsPerOne : Nat := 2 ^ 1074

/-- The magnitude of a finite value in units of 2^-1074: `fraction` for a zero or subnormal, `(2^52 + fraction) * 2^(e-1)` for a
normal with biased exponent `e`. For an infinity the same formula gives 2^2098, above every finite magnitude. -/
def fmag (x : F64) : Nat :=
  if fexpo x = 0 then ffrac x else (2 ^ 52 + ffrac x) * 2 ^ (fexpo x - 1)

/-- The signed magnitude: it orders every value that is no NaN, with both zeros at 0. -/
def fint (x : F64) : Int := if fsign x then -(fmag x : Int) else fmag x

/-- The word with sign `neg` and bits 62:0 `m`. -/
def fpack (neg : Bool) (m : Nat) : F64 := BitVec.ofNat 64 ((if neg then 2 ^ 63 else 0) + m)

/-- Bits 62:0 of an infinity. -/
def infBits : Nat := 2047 * 2 ^ 52

/-- The infinity with sign `neg`. -/
def finf (neg : Bool) : F64 := fpack neg infBits

/-- The zero with sign `neg`. -/
def fzero (neg : Bool) : F64 := fpack neg 0

/-! ### Rounding (00_scope.md R14: once, to nearest, ties to even, subnormals kept) -/

/-- `n / d` rounded to the nearest integer, ties to even. -/
def divNearestEven (n d : Nat) : Nat :=
  let q := n / d
  let r := n % d
  if d < 2 * r ∨ (2 * r = d ∧ q % 2 = 1) then q + 1 else q

/-- How many low bits the quantum of a value of `n / d` units spans: 0 for a subnormal and for the lowest normal binade, and
otherwise what leaves 53 significant bits. -/
def quantumShift (n d : Nat) : Nat := Nat.log2 (n / d) - 52

/-- Bits 62:0 of the binary64 nearest to `n / d` units of 2^-1074 (`0 < d`), ties to even; an infinity from the overflow threshold
on. A significand that rounds up to 2^53 carries into the exponent field by itself. -/
def roundMag (n d : Nat) : Nat :=
  let sh := quantumShift n d
  min (sh * 2 ^ 52 + divNearestEven n (d * 2 ^ sh)) infBits

/-- The binary64 nearest to `± n / d` units of 2^-1074. -/
def fround (neg : Bool) (n d : Nat) : F64 := fpack neg (roundMag n d)

/-! ### The primitives (00_scope.md R14, R16) -/

/-- `fadd(a, b)`: an exact sum of zero is `-0.0` only when both operands are negative zeros. -/
def fadd (a b : F64) : F64 :=
  if isNaN a || isNaN b then f64NaN
  else if isInf a then (if isInf b && fsign a != fsign b then f64NaN else a)
  else if isInf b then b
  else
    let v := fint a + fint b
    if v = 0 then fzero (fsign a && fsign b) else fround (decide (v < 0)) v.natAbs 1

/-- `-x`: the sign bit flipped. -/
def fneg (x : F64) : F64 := x ^^^ 0x8000000000000000#64

/-- `fsub(a, b)`. -/
def fsub (a b : F64) : F64 := fadd a (fneg b)

/-- `fmul(a, b)`. -/
def fmul (a b : F64) : F64 :=
  let neg := fsign a != fsign b
  if isNaN a || isNaN b then f64NaN
  else if isInf a || isInf b then (if fmag a = 0 ∨ fmag b = 0 then f64NaN else finf neg)
  else fround neg (fmag a * fmag b) unitsPerOne

/-- `fdiv(a, b)`. -/
def fdiv (a b : F64) : F64 :=
  let neg := fsign a != fsign b
  if isNaN a || isNaN b then f64NaN
  else if isInf a then (if isInf b then f64NaN else finf neg)
  else if isInf b then fzero neg
  else if fmag b = 0 then (if fmag a = 0 then f64NaN else finf neg)
  else fround neg (fmag a * unitsPerOne) (fmag b)

/-- The bits `k-1 .. 0` of the integer square root of `n`, given the root `r` of its higher bits. -/
def isqrtBits (n : Nat) : Nat → Nat → Nat
  | 0, r => r
  | k + 1, r => isqrtBits n k (if (r + 2 ^ k) * (r + 2 ^ k) ≤ n then r + 2 ^ k else r)

/-- The integer square root: the largest `r` with `r * r ≤ n`. -/
def isqrt (n : Nat) : Nat := isqrtBits n (Nat.log2 n / 2 + 1) 0

/-- `fsqrt(a)`. With `m` the magnitude of `a`, the root is `√(m * unitsPerOne)` units; its floor `r` exceeds 2^536, so that `r + 1/2`
stands on the same side of every rounding boundary as an inexact root does. -/
def fsqrt (a : F64) : F64 :=
  if isNaN a then f64NaN
  else if fmag a = 0 then a
  else if fsign a then f64NaN
  else if isInf a then a
  else
    let r := isqrt (fmag a * unitsPerOne)
    fround false (2 * r + if r * r = fmag a * unitsPerOne then 0 else 1) 2

/-- `exp64`, its NaN results passed through `canon` (00_scope.md R16, R17). -/
def fexp (x : F64) : F64 := canon (Config.exp64 x)
/-- `log64`, canonical. -/
def flog (x : F64) : F64 := canon (Config.log64 x)
/-- `sin64`, canonical. -/
def fsin (x : F64) : F64 := canon (Config.sin64 x)
/-- `cos64`, canonical. -/
def fcos (x : F64) : F64 := canon (Config.cos64 x)

/-! ### Comparisons (00_scope.md R15) -/

/-- `flt(a, b)`: false when either is a NaN. -/
def flt (a b : F64) : Bool := !isNaN a && !isNaN b && decide (fint a < fint b)
/-- `fle(a, b)`: false when either is a NaN. -/
def fle (a b : F64) : Bool := !isNaN a && !isNaN b && decide (fint a ≤ fint b)
/-- `fgt(a, b)`: false when either is a NaN. -/
def fgt (a b : F64) : Bool := !isNaN a && !isNaN b && decide (fint b < fint a)
/-- `fne(a, b)`: true when either is a NaN. -/
def fne (a b : F64) : Bool := isNaN a || isNaN b || decide (fint a ≠ fint b)

/-! ### Sums and integers -/

/-- `fsum(list)`: the left-to-right fold of `fadd` from `+0.0` (00_scope.md R19). -/
def fsum (l : List F64) : F64 := l.foldl fadd f64Zero

/-- `toF(i)`: the integer rounded to binary64 (00_scope.md R21). -/
def toF (i : Nat) : F64 := fround false (i * unitsPerOne) 1

/-- `floorX(q)` for `q` a zero, positive or `+∞` (00_scope.md R22); `none` is the symbol `∞`. -/
def floorX (q : F64) : Option Nat := if isInf q then none else some (fmag q / unitsPerOne)

end Sys2Proof.Machine
end

