-- ==== Sys2Proof/Syntax.lean ====
section
/-! DEFINITION. The six commands of BLE-1 (30_encoding.md R138), each with the three fields of the one command format (R130, R142).
A field a command ignores (R137, R140) is kept, so that no bit of a word is lost by decoding it. -/

namespace Sys2Proof

/-- A command: its opcode as the constructor; `src`, `dst` are DMEM word indices and `len` a count (30_encoding.md R133-R135). -/
inductive Instr where
  /-- LPC, OP 0x01 (40_lpc.md R160). -/
  | lpc (src dst len : Nat)
  /-- RESON, OP 0x02 (41_resonance.md R180); SRC and LEN are ignored. -/
  | reson (src dst len : Nat)
  /-- PCONV, OP 0x03 (41_resonance.md R185). -/
  | pconv (src dst len : Nat)
  /-- YIN, OP 0x04 (42_yin.md R200). -/
  | yin (src dst len : Nat)
  /-- NOISE, OP 0x05 (43_prng.md R220); SRC is ignored. -/
  | noise (src dst len : Nat)
  /-- NOISEC, OP 0x06 (43_prng.md R225); SRC is ignored. -/
  | noisec (src dst len : Nat)
deriving DecidableEq, Repr

/-- The SRC field. -/
def Instr.src : Instr → Nat
  | .lpc s _ _ | .reson s _ _ | .pconv s _ _ | .yin s _ _ | .noise s _ _ | .noisec s _ _ => s

/-- The DST field. -/
def Instr.dst : Instr → Nat
  | .lpc _ d _ | .reson _ d _ | .pconv _ d _ | .yin _ d _ | .noise _ d _ | .noisec _ d _ => d

/-- The LEN field. -/
def Instr.len : Instr → Nat
  | .lpc _ _ n | .reson _ _ n | .pconv _ _ n | .yin _ _ n | .noise _ _ n | .noisec _ _ n => n

end Sys2Proof
end

