-- ==== Sys2Proof/WellFormed.lean ====
section
/-! DEFINITION. A command is well-formed when each of its fields fits its 16 bits: "0 ≤ SRC, DST, LEN < 65536" (30_encoding.md R143). -/

namespace Sys2Proof

/-- The three range checks of 30_encoding.md R143. -/
abbrev Instr.WellFormed (i : Instr) : Prop := i.src < 65536 ∧ i.dst < 65536 ∧ i.len < 65536

end Sys2Proof
end

