-- ==== Sys2Proof/Decode.lean ====
section
/-! DEFINITION. Decoding a command word, total on every 64-bit word (30_encoding.md R142), and the encoder (R143). -/

namespace Sys2Proof

/-- What a word decodes to (30_encoding.md R142). -/
inductive Decoded where
  /-- OP is 0x00 or 0x07..0xFF (R139). -/
  | illegal
  /-- A legal OP with RSV not 0x00 (R132). -/
  | reserved
  /-- A command. -/
  | cmd (i : Instr)
deriving DecidableEq, Repr

/-- `OP = w[7:0]` (30_encoding.md R131). -/
def opField (w : Word) : Nat := w.field 0 8

/-- `RSV = w[15:8]` (30_encoding.md R132). -/
def rsvField (w : Word) : Nat := w.field 8 8

/-- `SRC = zext(w[31:16])` (30_encoding.md R133). -/
def srcField (w : Word) : Nat := w.field 16 16

/-- `DST = zext(w[47:32])` (30_encoding.md R134). -/
def dstField (w : Word) : Nat := w.field 32 16

/-- `LEN = zext(w[63:48])` (30_encoding.md R135). -/
def lenField (w : Word) : Nat := w.field 48 16

/-- The opcode map (30_encoding.md R138); every other OP is illegal (R139, R141). -/
def commandOf (op src dst len : Nat) : Option Instr :=
  match op with
  | 1 => some (.lpc src dst len)
  | 2 => some (.reson src dst len)
  | 3 => some (.pconv src dst len)
  | 4 => some (.yin src dst len)
  | 5 => some (.noise src dst len)
  | 6 => some (.noisec src dst len)
  | _ => none

/-- `decode(w)` (30_encoding.md R142): the opcode is looked at before the reserved field. -/
def decode (w : Word) : Decoded :=
  match commandOf (opField w) (srcField w) (dstField w) (lenField w) with
  | none => .illegal
  | some i => if rsvField w ≠ 0 then .reserved else .cmd i

/-- The opcode of a command (30_encoding.md R138). -/
def Instr.op : Instr → Nat
  | .lpc _ _ _ => 1
  | .reson _ _ _ => 2
  | .pconv _ _ _ => 3
  | .yin _ _ _ => 4
  | .noise _ _ _ => 5
  | .noisec _ _ _ => 6

/-- `enc(OP, SRC, DST, LEN) = (LEN << 48) | (DST << 32) | (SRC << 16) | OP` (30_encoding.md R143). -/
def enc (op src dst len : Nat) : Word :=
  BitVec.ofNat 64 ((len <<< 48) ||| (dst <<< 32) ||| (src <<< 16) ||| op)

/-- The word of a command (30_encoding.md R143). -/
def encode (i : Instr) : Word := enc i.op i.src i.dst i.len

/-- The command this decoder reads from a word numbered as spec/opcode_table.json numbers it: one 64-bit word, bit 0 the least
significant (00_scope.md R8), the bits from `nbits` up being 0. -/
def decodeTableWord (nbits w : Nat) : Option Instr :=
  match decode (BitVec.ofNat 64 (w % 2 ^ nbits)) with
  | .cmd i => some i
  | .illegal => none
  | .reserved => none

end Sys2Proof
end

