-- ==== Sys2Proof/Machine/Ops.lean ====
section
/-! DEFINITION. The named operations over memory and registers: DMEM words over bytes (10_state.md R41, R42; 20_memory.md R102, R104),
acceptance (60_exceptions.md R241), and completion, successful or with an error code (R242, R248): the block's one exception entry
(R254). The host's return from it is clearing DONE (R255). -/

namespace Sys2Proof.Machine

open Sys2Proof

/-! ### DMEM -/

/-- The byte at a byte address; `none` where nothing was written. -/
def Mem.read : Mem → Nat → Option (BitVec 8)
  | [], _ => none
  | (k, b) :: m, a => if k = a then some b else Mem.read m a

/-- Write one byte, keeping the addresses strictly rising. -/
def Mem.write : Mem → Nat → BitVec 8 → Mem
  | [], a, b => [(a, b)]
  | (k, c) :: m, a, b =>
    if k < a then (k, c) :: Mem.write m a b
    else if k = a then (a, b) :: m
    else (a, b) :: (k, c) :: m

/-- The little-endian number in `n` bytes from byte address `a`; `none` when one of them is unwritten (20_memory.md R102). -/
def Mem.readLE (m : Mem) (a : Nat) : Nat → Option Nat
  | 0 => some 0
  | n + 1 =>
    match m.read a with
    | none => none
    | some b => (Mem.readLE m (a + 1) n).map fun r => b.toNat + 256 * r

/-- Write the low `n` bytes of `v` from byte address `a`, little-endian (20_memory.md R102). -/
def Mem.writeLE (m : Mem) (a v : Nat) : Nat → Mem
  | 0 => m
  | n + 1 => Mem.writeLE (m.write a (BitVec.ofNat 8 v)) (a + 1) (v / 256) n

/-- `DMEM[i]`, or `none` when the word is unwritten (10_state.md R42). -/
def Mem.readWord (m : Mem) (i : Nat) : Option Word := (m.readLE (8 * i) 8).map (BitVec.ofNat 64)

/-- `DMEM[i] <- v`, which marks the word written (10_state.md R42). -/
def Mem.writeWord (m : Mem) (i : Nat) (v : Word) : Mem := m.writeLE (8 * i) v.toNat 8

/-- `MemRead(w, n)` (00_scope.md R11); `none` when one of the words is unwritten (20_memory.md R115). -/
def Mem.readWords (m : Mem) (w : Nat) : Nat → Option (List Word)
  | 0 => some []
  | n + 1 =>
    match m.readWord w with
    | none => none
    | some v => (Mem.readWords m (w + 1) n).map fun vs => v :: vs

/-- `MemWrite(w, len(vs), vs)`, in ascending index order (00_scope.md R11). -/
def Mem.writeWords (m : Mem) (w : Nat) : List Word → Mem
  | [] => m
  | v :: vs => Mem.writeWords (m.writeWord w v) (w + 1) vs

/-- The writes of an effect record, in order (60_exceptions.md R242). -/
def Mem.writeAll (m : Mem) : List (Nat × List Word) → Mem
  | [] => m
  | (w, vs) :: rest => Mem.writeAll (m.writeWords w vs) rest

/-- The canonical form: addresses strictly rising. (An unlisted byte has no value, so no entry repeats what it would read as.) -/
abbrev Mem.wf (m : Mem) : Prop := m.Pairwise fun x y => x.1 < y.1

/-! ### Acceptance and completion -/

/-- The completion codes (60_exceptions.md R244). -/
inductive Code where
  | ok
  | opcode
  | reserved
  | argument
  | range
deriving DecidableEq, Repr

/-- A code as ERRCODE holds it (60_exceptions.md R244). -/
def codeBits : Code → BitVec 8
  | .ok => 0x00#8
  | .opcode => 0x01#8
  | .reserved => 0x02#8
  | .argument => 0x03#8
  | .range => 0x04#8

/-- The effect record a command rule returns (60_exceptions.md R242). -/
structure Effect where
  writes : List (Nat × List Word)
  r0     : Nat
  r1     : Nat
  voiced : Bool
  prng   : Option U32
deriving DecidableEq, Repr

/-- Acceptance of the word `w` (60_exceptions.md R241). -/
def State.accept (s : State) (w : Word) : State :=
  { s with cmd := w, lat := { cmd := w, arg := s.arg, prng := s.prng }, busy := true, done := false }

/-- A completion with code `0x00` (60_exceptions.md R242). -/
def State.completeOk (s : State) (e : Effect) : State :=
  { s with
    dmem := s.dmem.writeAll e.writes
    result0 := BitVec.ofNat 64 e.r0
    result1 := BitVec.ofNat 64 e.r1
    voiced := e.voiced
    prng := e.prng.getD s.prng
    errcode := codeBits .ok
    done := true
    busy := false }

/-- A completion with a code other than `0x00` (60_exceptions.md R242, R248). -/
def State.completeError (s : State) (c : Code) : State :=
  { s with
    result0 := 0
    result1 := 0
    voiced := false
    errcode := codeBits c
    err := true
    done := true
    busy := false }

end Sys2Proof.Machine
end

