-- ==== Sys2Proof/Machine/Operands.lean ====
section
/-! DEFINITION. The operand forms of the commands (30_encoding.md R136, R137), and the checks made on them before any arithmetic
(60_exceptions.md R243, R245, R246). -/

namespace Sys2Proof.Machine

open Sys2Proof

/-- The form u64 (30_encoding.md R136). -/
def argU64 (w : Word) : Nat := w.toNat

/-- The form f64 (30_encoding.md R136). -/
def argF64 (w : Word) : F64 := w

/-- The form u32: bits 63:32 are ignored (30_encoding.md R136). -/
def argU32 (w : Word) : U32 := BitVec.ofNat 32 (w.field 0 32)

/-- `isfinite(x)` and `fgt(x, +0.0)`: the check on a sample rate (60_exceptions.md R245). -/
def finitePositive (x : F64) : Bool := isFinite x && fgt x f64Zero

/-- `argument_invalid` (60_exceptions.md R245), one line per row of its table. -/
def argumentInvalid (i : Instr) (lat : Lat) : Bool :=
  match i with
  | .lpc _ _ n => n == 0 || argU64 lat.arg.arg0 == 0
  | .reson _ _ _ => !finitePositive (argF64 lat.arg.arg2)
  | .pconv _ _ lp => lp == 0 || argU64 lat.arg.arg1 == 0
  | .yin _ _ n =>
    n == 0 || !finitePositive (argF64 lat.arg.arg0) || !fgt (argF64 lat.arg.arg1) f64Zero
      || !flt (argF64 lat.arg.arg1) (argF64 lat.arg.arg2)
  | .noise _ _ n => n == 0
  | .noisec _ _ n => n == 0

/-- `range_invalid` (60_exceptions.md R246) with `W = DMEM_WORDS`, one line per row of its table; the sums never wrap
(00_scope.md R9). -/
def rangeInvalid (W : Nat) (i : Instr) (lat : Lat) : Bool :=
  match i with
  | .lpc src dst n => decide (src + n > W) || decide (dst + argU64 lat.arg.arg0 + 1 > W)
  | .reson _ dst _ => decide (dst + 3 > W)
  | .pconv src dst lp =>
    decide (src + lp > W) || decide (argU64 lat.arg.arg0 + argU64 lat.arg.arg1 > W)
      || decide (dst + lp + argU64 lat.arg.arg1 - 1 > W)
  | .yin src dst n => decide (src + n > W) || decide (dst + 1 > W)
  | .noise _ dst n => decide (dst + n > W)
  | .noisec _ dst n => decide (dst + n > W)

/-- The last three steps of `perform`, and the completion they lead to (60_exceptions.md R242, R243): ARGUMENT before RANGE before
execution. `run` is what `execute` returns; `none` when it reads an unwritten word (20_memory.md R115). -/
def checkAndComplete (i : Instr) (s : State) (run : Option Effect) : Host.Outcome State Fault Refusal :=
  if argumentInvalid i s.lat then .next (s.completeError .argument)
  else if rangeInvalid s.dmemWords i s.lat then .next (s.completeError .range)
  else
    match run with
    | none => .fault .uninit
    | some e => .next (s.completeOk e)

end Sys2Proof.Machine
end

