-- ==== Sys2Proof/Machine/Lpc.lean ====
section
/-! DEFINITION. The LPC unit (40_lpc.md): Burg's recursion and the command LPC. -/

namespace Sys2Proof.Machine

open Sys2Proof

/-- Element `i` of a list of values; the rules never index past its end. -/
def elem (l : List F64) (i : Nat) : F64 := l.getD i f64Zero

/-- What the recursion carries: the error sequences, the coefficient vector, the completed stages (40_lpc.md R162). -/
structure Burg where
  ef     : List F64
  eb     : List F64
  a      : List F64
  stages : Nat
deriving DecidableEq, Repr

/-- The initial values (40_lpc.md R162). -/
def burgInit (x : List F64) (p : Nat) : Burg :=
  { ef := x, eb := x, a := f64One :: List.replicate p f64Zero, stages := 0 }

/-- `num` of stage `m` over windows of length `L` (40_lpc.md R163, R164). -/
def burgNum (b : Burg) (m L : Nat) : F64 :=
  fsum ((List.range L).map fun j => fmul (elem b.ef (m + j)) (elem b.eb (m - 1 + j)))

/-- `den` of stage `m` (40_lpc.md R165): the two sums are formed separately, then added. -/
def burgDen (b : Burg) (m L : Nat) : F64 :=
  fadd (fsum ((List.range L).map fun j => fmul (elem b.ef (m + j)) (elem b.ef (m + j))))
    (fsum ((List.range L).map fun j => fmul (elem b.eb (m - 1 + j)) (elem b.eb (m - 1 + j))))

/-- The coefficient update of stage `m` with reflection coefficient `k` (40_lpc.md R168). -/
def burgCoefs (a : List F64) (m : Nat) (k : F64) : List F64 :=
  (List.range a.length).map fun i =>
    if i = 0 then elem a 0
    else if i < m then fadd (elem a i) (fmul k (elem a (m - i)))
    else if i = m then k
    else elem a i

/-- The forward error update (40_lpc.md R169): elements `m .. m+L-1`. -/
def burgForward (b : Burg) (m L : Nat) (k : F64) : List F64 :=
  (List.range b.ef.length).map fun i =>
    if m ≤ i ∧ i < m + L then fadd (elem b.ef i) (fmul k (elem b.eb (i - 1))) else elem b.ef i

/-- The backward error update (40_lpc.md R169): elements `m-1 .. m-1+L-1`, from the forward sequence before its update. -/
def burgBackward (b : Burg) (m L : Nat) (k : F64) : List F64 :=
  (List.range b.eb.length).map fun i =>
    if m - 1 ≤ i ∧ i < m - 1 + L then fadd (elem b.eb i) (fmul k (elem b.ef (i + 1))) else elem b.eb i

/-- Stage `m` once its energy test has not ended the recursion (40_lpc.md R167-R170). -/
def burgStage (b : Burg) (m L : Nat) : Burg :=
  let k := fdiv (fmul f64NegTwo (burgNum b m L)) (burgDen b m L)
  { ef := burgForward b m L k, eb := burgBackward b m L k, a := burgCoefs b.a m k, stages := m }

/-- Stages `m, m+1, ...`, `count` of them, unless the energy test ends them early (40_lpc.md R163, R166); `n` is the number of
samples and stage `m` has windows of `n - m`, at least 0. -/
def burgLoop (n : Nat) : Nat → Nat → Burg → Burg
  | 0, _, b => b
  | count + 1, m, b =>
    if fle (burgDen b m (n - m)) f64EpsDen then b
    else burgLoop n count (m + 1) (burgStage b m (n - m))

/-- `burg(x, p)` (40_lpc.md R161): the coefficients and the number of completed stages. -/
def burg (x : List F64) (p : Nat) : List F64 × Nat :=
  let b := burgLoop x.length p 1 (burgInit x p)
  (b.a, b.stages)

/-- The `execute` of LPC (40_lpc.md R160); `none` when a sample is unwritten. -/
def lpcEffect (src dst n : Nat) (s : State) : Option Effect :=
  (s.dmem.readWords src n).map fun x =>
    let p := argU64 s.lat.arg.arg0
    { writes := [(dst, (burg x p).1)], r0 := p + 1, r1 := (burg x p).2, voiced := false, prng := none }

/-- LPC (40_lpc.md R160). -/
def execLpc (src dst len : Nat) (s : State) : Host.Outcome State Fault Refusal :=
  checkAndComplete (.lpc src dst len) s (lpcEffect src dst len s)

end Sys2Proof.Machine
end

