-- ==== Sys2Proof/Machine/Prng.lean ====
section
/-! DEFINITION. The PRNG unit (43_prng.md): Gaussian noise by Box-Muller from a 32-bit LCG; NOISE and NOISEC. -/

namespace Sys2Proof.Machine

open Sys2Proof

/-- `lcg(s) = (s * 1664525 + 1013904223) mod 2^32` (43_prng.md R221). -/
def lcg (s : U32) : U32 := BitVec.ofNat 32 (s.toNat * 1664525 + 1013904223)

/-- `U(s) = fdiv(toF(s + 1), TWO32)` (43_prng.md R222). -/
def uniform (s : U32) : F64 := fdiv (toF (s.toNat + 1)) f64Two32

/-- One sample from its two uniforms (43_prng.md R223). -/
def boxMuller (u1 u2 : F64) : F64 := fmul (fsqrt (fmul f64NegTwo (flog u1))) (fsin (fmul f64TwoPi u2))

/-- `gauss(s, n)` (43_prng.md R223): the samples and the final state. -/
def gauss (s : U32) : Nat → List F64 × U32
  | 0 => ([], s)
  | n + 1 =>
    (boxMuller (uniform (lcg s)) (uniform (lcg (lcg s))) :: (gauss (lcg (lcg s)) n).1, (gauss (lcg (lcg s)) n).2)

/-- The effect of `n` samples from state `s0` (43_prng.md R220, R224, R225). -/
def gaussEffect (dst n : Nat) (s0 : U32) : Option Effect :=
  some { writes := [(dst, (gauss s0 n).1)], r0 := n, r1 := 0, voiced := false, prng := some (gauss s0 n).2 }

/-- NOISE (43_prng.md R220): from the seed `ARG0[31:0]`. -/
def execNoise (src dst len : Nat) (s : State) : Host.Outcome State Fault Refusal :=
  checkAndComplete (.noise src dst len) s (gaussEffect dst len (argU32 s.lat.arg.arg0))

/-- NOISEC (43_prng.md R225): from the latched PRNG_STATE. -/
def execNoisec (src dst len : Nat) (s : State) : Host.Outcome State Fault Refusal :=
  checkAndComplete (.noisec src dst len) s (gaussEffect dst len s.lat.prng)

end Sys2Proof.Machine
end

