-- ==== Sys2Proof/Machine/Res.lean ====
section
/-! DEFINITION. The RES unit (41_resonance.md): resonance synthesis, RESON, and polynomial convolution, PCONV. -/

namespace Sys2Proof.Machine

open Sys2Proof

/-- `theta` (41_resonance.md R181). -/
def poleAngle (f rate : F64) : F64 := fdiv (fmul f64TwoPi f) rate

/-- `r` (41_resonance.md R182). -/
def poleRadius (bw rate : F64) : F64 := fexp (fdiv (fmul f64NegPi bw) rate)

/-- `resonance(f, bw, rate)` (41_resonance.md R183). -/
def resonance (f bw rate : F64) : List F64 :=
  let r := poleRadius bw rate
  [f64One, fmul (fmul f64NegTwo r) (fcos (poleAngle f rate)), fmul r r]

/-- The `execute` of RESON (41_resonance.md R180). It reads no DMEM. -/
def resonEffect (dst : Nat) (s : State) : Option Effect :=
  some
    { writes := [(dst, resonance (argF64 s.lat.arg.arg0) (argF64 s.lat.arg.arg1) (argF64 s.lat.arg.arg2))]
      r0 := 3, r1 := 0, voiced := false, prng := none }

/-- RESON (41_resonance.md R180). -/
def execReson (src dst len : Nat) (s : State) : Host.Outcome State Fault Refusal :=
  checkAndComplete (.reson src dst len) s (resonEffect dst s)

/-- Element `k` of the product (41_resonance.md R186): the terms `i` in `lo..hi`, ascending. -/
def convElem (p q : List F64) (k : Nat) : F64 :=
  let lo := k + 1 - q.length
  let hi := min k (p.length - 1)
  fsum ((List.range' lo (hi + 1 - lo)).map fun i => fmul (elem p i) (elem q (k - i)))

/-- `conv(p, q)` (41_resonance.md R186). -/
def conv (p q : List F64) : List F64 := (List.range (p.length + q.length - 1)).map (convElem p q)

/-- The `execute` of PCONV (41_resonance.md R185); `none` when a coefficient is unwritten. -/
def pconvEffect (src dst lp : Nat) (s : State) : Option Effect :=
  match s.dmem.readWords src lp with
  | none => none
  | some p =>
    (s.dmem.readWords (argU64 s.lat.arg.arg0) (argU64 s.lat.arg.arg1)).map fun q =>
      { writes := [(dst, conv p q)], r0 := lp + argU64 s.lat.arg.arg1 - 1, r1 := 0, voiced := false, prng := none }

/-- PCONV (41_resonance.md R185). -/
def execPconv (src dst len : Nat) (s : State) : Host.Outcome State Fault Refusal :=
  checkAndComplete (.pconv src dst len) s (pconvEffect src dst len s)

end Sys2Proof.Machine
end

