-- ==== Sys2Proof/Machine/Yin.lean ====
section
/-! DEFINITION. The YIN unit (42_yin.md): pitch detection. -/

namespace Sys2Proof.Machine

open Sys2Proof

/-- `bounds` (42_yin.md R201): `tauMin`, where `none` is `∞`, and `tauMax`. -/
def yinBounds (sr fmin fmax : F64) (n : Nat) : Option Nat × Nat :=
  ((floorX (fdiv sr fmax)).map fun q => max 1 q,
    match floorX (fdiv sr fmin) with
    | none => n - 1
    | some q => min q (n - 1))

/-- `d[tau]` (42_yin.md R202): the square is the rounded difference times itself. -/
def yinDiff (fr : List F64) (tau : Nat) : F64 :=
  fsum ((List.range (fr.length - tau)).map fun i =>
    fmul (fsub (elem fr i) (elem fr (i + tau))) (fsub (elem fr i) (elem fr (i + tau))))

/-- `d[1 .. tauMax]` (42_yin.md R202). -/
def yinDiffs (fr : List F64) (tauMax : Nat) : List F64 := (List.range' 1 tauMax).map (yinDiff fr)

/-- `cmnd[tau], cmnd[tau+1], ...` from `d[tau], d[tau+1], ...` and the running sum before them (42_yin.md R203). -/
def cmndFrom (tau : Nat) (sum : F64) : List F64 → List F64
  | [] => []
  | d :: ds =>
    (if fgt (fadd sum d) f64Zero then fdiv (fmul d (toF tau)) (fadd sum d) else f64One)
      :: cmndFrom (tau + 1) (fadd sum d) ds

/-- `cmndf` (42_yin.md R203), from `d[1 .. tauMax]`. -/
def yinCmnd (ds : List F64) : List F64 := f64One :: cmndFrom 1 f64Zero ds

/-- The refinement (42_yin.md R205): `fuel` is `tauMax - tau`, so that `tau + 1 ≤ tauMax` while it lasts. -/
def yinRefine (cmnd : List F64) : Nat → Nat → Nat
  | 0, tau => tau
  | fuel + 1, tau =>
    if flt (elem cmnd (tau + 1)) (elem cmnd tau) then yinRefine cmnd fuel (tau + 1) else tau

/-- `search` (42_yin.md R204, R205): the first lag of `tauMin..tauMax` below the threshold, refined. -/
def yinSearch (cmnd : List F64) (tauMin : Option Nat) (tauMax : Nat) (thr : F64) : Option Nat :=
  match tauMin with
  | none => none
  | some lo =>
    ((List.range' lo (tauMax + 1 - lo)).find? fun t => flt (elem cmnd t) thr).map fun t =>
      yinRefine cmnd (tauMax - t) t

/-- `denom` of the parabolic interpolation (42_yin.md R207). -/
def yinDenom (s0 s1 s2 : F64) : F64 := fmul f64Two (fsub (fsub (fmul f64Two s1) s2) s0)

/-- `interp` (42_yin.md R207). -/
def yinInterp (cmnd : List F64) (tau tauMax : Nat) : F64 :=
  let s0 := elem cmnd (tau - 1)
  let s1 := elem cmnd tau
  let s2 := elem cmnd (tau + 1)
  if 1 < tau ∧ tau < tauMax ∧ fne (yinDenom s0 s1 s2) f64Zero then
    fadd (toF tau) (fdiv (fsub s2 s0) (yinDenom s0 s1 s2))
  else toF tau

/-- The pitch estimate of a frame: the integer lag and the pitch (42_yin.md R200, R208), or `none` when it is unvoiced (R206). -/
def yinEstimate (fr : List F64) (sr fmin fmax thr : F64) : Option (Nat × F64) :=
  let bounds := yinBounds sr fmin fmax fr.length
  let cmnd := yinCmnd (yinDiffs fr bounds.2)
  (yinSearch cmnd bounds.1 bounds.2 thr).map fun tau => (tau, fdiv sr (yinInterp cmnd tau bounds.2))

/-- The effect of an estimate (42_yin.md R200, R206, R208). -/
def yinResult (dst : Nat) : Option (Nat × F64) → Effect
  | none => { writes := [], r0 := 0, r1 := 0, voiced := false, prng := none }
  | some (tau, pitch) => { writes := [(dst, [pitch])], r0 := 1, r1 := tau, voiced := true, prng := none }

/-- The `execute` of YIN (42_yin.md R200); `none` when a sample is unwritten. -/
def yinEffect (src dst n : Nat) (s : State) : Option Effect :=
  (s.dmem.readWords src n).map fun fr =>
    yinResult dst (yinEstimate fr (argF64 s.lat.arg.arg0) (argF64 s.lat.arg.arg1) (argF64 s.lat.arg.arg2)
      (argF64 s.lat.arg.arg3))

/-- YIN (42_yin.md R200). -/
def execYin (src dst len : Nat) (s : State) : Host.Outcome State Fault Refusal :=
  checkAndComplete (.yin src dst len) s (yinEffect src dst len s)

end Sys2Proof.Machine
end

