-- ==== Sys2Proof/Machine/Dispatch.lean ====
section
/-! DEFINITION. One arm per command: the completion of an accepted command that decodes to it (60_exceptions.md R242, R243). -/

namespace Sys2Proof.Machine

open Sys2Proof

def exec (i : Instr) (s : State) : Host.Outcome State Fault Refusal :=
  match i with
  | .lpc src dst len => Sys2Proof.Machine.execLpc src dst len s
  | .reson src dst len => Sys2Proof.Machine.execReson src dst len s
  | .pconv src dst len => Sys2Proof.Machine.execPconv src dst len s
  | .yin src dst len => Sys2Proof.Machine.execYin src dst len s
  | .noise src dst len => Sys2Proof.Machine.execNoise src dst len s
  | .noisec src dst len => Sys2Proof.Machine.execNoisec src dst len s

end Sys2Proof.Machine
end

