-- ==== Sys2Proof/Machine/Flags.lean ====
section
/-! DEFINITION. The status bits: STATUS as the host reads it (10_state.md R50), its write-1-to-clear write (R57), and the derived
interrupt line (R62). The block has no other flags (R65). -/

namespace Sys2Proof.Machine

open Sys2Proof

/-- STATUS as one word (10_state.md R50), bit 63 first; reserved bits read as 0. -/
def State.status (s : State) : Word :=
  (0#48 ++ s.errcode ++ 0#3 ++ BitVec.ofBool s.voiced ++ BitVec.ofBool s.ovr ++ BitVec.ofBool s.err
    ++ BitVec.ofBool s.done ++ BitVec.ofBool s.busy : BitVec (48 + 8 + 3 + 1 + 1 + 1 + 1 + 1))

/-- A host write of `v` to STATUS (10_state.md R57): bits 1, 2 and 3 clear DONE, ERR and OVR. -/
def State.clearStatus (s : State) (v : Word) : State :=
  { s with
    done := s.done && !v.getLsbD 1
    err := s.err && !v.getLsbD 2
    ovr := s.ovr && !v.getLsbD 3 }

/-- `irq = CTRL.IE AND STATUS.DONE` (10_state.md R62; 60_exceptions.md R252). -/
def State.irq (s : State) : Bool := s.ctrlIe && s.done

end Sys2Proof.Machine
end

