-- ==== Sys2Proof/Machine/HostPort.lean ====
section
/-! DEFINITION. The host's slave port (20_memory.md R90-R101): decoding a transaction, the twelve registers (10_state.md R44-R63),
the DMEM window, and the reset input (70_reset_and_hazards.md R270). -/

namespace Sys2Proof.Machine

open Sys2Proof

/-- The twelve registers (10_state.md R44). -/
inductive Reg where
  | id
  | hwcfg
  | ctrl
  | status
  | cmd
  | arg0
  | arg1
  | arg2
  | arg3
  | result0
  | result1
  | prngState
deriving DecidableEq, Repr

/-- The register at byte offset `8 * k` (10_state.md R44). -/
def regAt : Nat → Option Reg
  | 0 => some .id
  | 1 => some .hwcfg
  | 2 => some .ctrl
  | 3 => some .status
  | 4 => some .cmd
  | 5 => some .arg0
  | 6 => some .arg1
  | 7 => some .arg2
  | 8 => some .arg3
  | 9 => some .result0
  | 10 => some .result1
  | 11 => some .prngState
  | _ => none

/-- What a transaction addresses. -/
inductive Target where
  | reg (r : Reg)
  | dmem (i : Nat)
deriving DecidableEq, Repr

/-- The decoding of a transaction in the order of 20_memory.md R91, with `W = DMEM_WORDS`; `none` is BusError (R92, R94, R96). -/
def target (W size : Nat) (off : BitVec 20) : Option Target :=
  if size ≠ 8 then none
  else if off.toNat % 8 ≠ 0 then none
  else if off.toNat ≤ 0x58 then (regAt (off.toNat / 8)).map .reg
  else if 0x80000 ≤ off.toNat ∧ off.toNat < 0x80000 + 8 * W then some (.dmem ((off.toNat - 0x80000) / 8))
  else none

/-- ID (10_state.md R46). -/
def idWord : Word := 0x484D494300010000#64

/-- HWCFG: `zext_64({0xF, DMEM_WORDS[31:0]})` (10_state.md R44, R47). -/
def hwcfgWord (W : Nat) : Word := (0#28 ++ 0xF#4 ++ BitVec.ofNat 32 W : BitVec (28 + 4 + 32))

/-- The value of a register; reserved fields read as 0 (10_state.md R45; 20_memory.md R97). -/
def State.readReg (s : State) : Reg → Word
  | .id => idWord
  | .hwcfg => hwcfgWord s.dmemWords
  | .ctrl => (0#63 ++ BitVec.ofBool s.ctrlIe : BitVec (63 + 1))
  | .status => s.status
  | .cmd => s.cmd
  | .arg0 => s.arg.arg0
  | .arg1 => s.arg.arg1
  | .arg2 => s.arg.arg2
  | .arg3 => s.arg.arg3
  | .result0 => s.result0
  | .result1 => s.result1
  | .prngState => (0#32 ++ s.prng : BitVec (32 + 32))

/-- A write to CMD: acceptance while idle (60_exceptions.md R241), and otherwise the word is dropped and OVR set (R251). -/
def State.writeCmd (s : State) (w : Word) : State := if s.busy then { s with ovr := true } else s.accept w

/-- A write to a register (20_memory.md R98), but for a PRNG_STATE write while BUSY, which `hwrite` answers with ERROR (R101). -/
def State.writeReg (s : State) (v : Word) : Reg → State
  | .id => s
  | .hwcfg => s
  | .ctrl => { s with ctrlIe := v.getLsbD 0 }
  | .status => s.clearStatus v
  | .cmd => s.writeCmd v
  | .arg0 => { s with arg := { s.arg with arg0 := v } }
  | .arg1 => { s with arg := { s.arg with arg1 := v } }
  | .arg2 => { s with arg := { s.arg with arg2 := v } }
  | .arg3 => { s with arg := { s.arg with arg3 := v } }
  | .result0 => s
  | .result1 => s
  | .prngState => { s with prng := BitVec.ofNat 32 (v.field 0 32) }

/-- The state with the port's answer. -/
def State.answer (s : State) (r : Reply) : State := { s with reply := some r }

/-- `HREAD(off)` (20_memory.md R97, R99, R101, R115). A BusError answers data 0x0 and changes nothing (R93). -/
def hread (s : State) (size : Nat) (off : BitVec 20) : Host.Outcome State Fault Refusal :=
  match target s.dmemWords size off with
  | none => .next (s.answer (.read 0 .error))
  | some (.reg r) => .next (s.answer (.read (s.readReg r) .okay))
  | some (.dmem i) =>
    if s.busy then .next (s.answer (.read 0 .error))
    else
      match s.dmem.readWord i with
      | none => .fault .uninit
      | some v => .next (s.answer (.read v .okay))

/-- `HWRITE(off, v)` (20_memory.md R98, R100, R101). A BusError changes nothing (R93). -/
def hwrite (s : State) (size : Nat) (off : BitVec 20) (v : Word) : Host.Outcome State Fault Refusal :=
  match target s.dmemWords size off with
  | none => .next (s.answer (.write .error))
  | some (.reg r) =>
    if s.busy ∧ r = .prngState then .next (s.answer (.write .error))
    else .next ((s.writeReg v r).answer (.write .okay))
  | some (.dmem i) =>
    if s.busy then .next (s.answer (.write .error))
    else .next ({ s with dmem := s.dmem.writeWord i v }.answer (.write .okay))

/-- The reset input (70_reset_and_hazards.md R270, R271): every field at its reset value; DMEM_WORDS is no state of the block and
the inputs still to come are the outside's (log entries 3 and 6). -/
def State.applyReset (s : State) : State :=
  { State.reset with dmemWords := s.dmemWords, schedule := s.schedule }

end Sys2Proof.Machine
end

