-- ==== Sys2Proof/Machine/Step.lean ====
section
/-! DEFINITION. One step of the block: the next input of the schedule, and, when no input is left, the core's completion if one is
enabled (20_memory.md R109; 60_exceptions.md R242; 70_reset_and_hazards.md R285). -/

namespace Sys2Proof.Machine

open Sys2Proof

/-- The completion of the accepted command: `perform` decodes the latched word, OPCODE before RESERVED before the command's own
checks (60_exceptions.md R242, R243). -/
def complete (s : State) : Host.Outcome State Fault Refusal :=
  match decode s.lat.cmd with
  | .illegal => .next (s.completeError .opcode)
  | .reserved => .next (s.completeError .reserved)
  | .cmd i => exec i s

/-- The core's turn: enabled exactly when `STATUS.BUSY = 1` (60_exceptions.md R242); an idle block changes nothing (R262). -/
def coreTurn (s : State) : Host.Outcome State Fault Refusal := if s.busy then complete s else .next s

/-- What one input does, its entry already taken off the schedule. -/
def handle (e : Event) (s : State) : Host.Outcome State Fault Refusal :=
  match e with
  | .hread size off => hread s size off
  | .hwrite size off data => hwrite s size off data
  | .coreTurn => coreTurn s
  | .rst => .next s.applyReset

/-- One step (log entries 6 and 7). -/
def step (s : State) : Host.Outcome State Fault Refusal :=
  match s.schedule with
  | [] => coreTurn s
  | e :: rest => handle e { s with schedule := rest }

/-- `s` with the command word `w` accepted and the core given the next turn, so that the next step completes exactly this command
(log entry 9). -/
def State.withFetchWord (s : State) (nbits w : Nat) : State :=
  { s.accept (BitVec.ofNat 64 (w % 2 ^ nbits)) with schedule := .coreTurn :: s.schedule }

end Sys2Proof.Machine
end

