-- ==== Sys2Proof/Machine/Script.lean ====
section
/-! DEFINITION. The spec's spellings of commands and host transactions: the assembler of command words (30_encoding.md R144), the
lines of a host script (R145) and its pseudo-instructions (R146), their text and the words and inputs they stand for. Log entry
12. -/

namespace Sys2Proof.Machine

open Sys2Proof

/-! ### Command words (30_encoding.md R144) -/

/-- A line of the assembler: a mnemonic's opcode with its operands, or `.word`. -/
inductive AsmLine where
  | command (op : Nat) (d s n : Option Nat)
  | word (w : Word)
deriving DecidableEq, Repr

/-- The word of a line; "an omitted one encodes as 0" (30_encoding.md R144). -/
def assembleLine : AsmLine → Word
  | .command op d s n => enc op (s.getD 0) (d.getD 0) (n.getD 0)
  | .word w => w

/-- The opcode of a mnemonic (30_encoding.md R138, R144). -/
def mnemonicOp (m : List Char) : Option Nat :=
  if m = ['L', 'P', 'C'] then some 1
  else if m = ['R', 'E', 'S', 'O', 'N'] then some 2
  else if m = ['P', 'C', 'O', 'N', 'V'] then some 3
  else if m = ['Y', 'I', 'N'] then some 4
  else if m = ['N', 'O', 'I', 'S', 'E'] then some 5
  else if m = ['N', 'O', 'I', 'S', 'E', 'C'] then some 6
  else none

/-- The value of a digit character in base 16. -/
def digitValue (c : Char) : Option Nat :=
  if 48 ≤ c.toNat ∧ c.toNat ≤ 57 then some (c.toNat - 48)
  else if 97 ≤ c.toNat ∧ c.toNat ≤ 102 then some (c.toNat - 87)
  else if 65 ≤ c.toNat ∧ c.toNat ≤ 70 then some (c.toNat - 55)
  else none

/-- The decimal digits after `acc`. -/
def digitsFrom (acc : Nat) : List Char → Option Nat
  | [] => some acc
  | c :: cs =>
    match digitValue c with
    | none => none
    | some v => if v < 10 then digitsFrom (acc * 10 + v) cs else none

/-- The hex digits after `acc`, "with `_` allowed as a digit separator" (00_scope.md R8). DESIGN CHOICE (log entry 12): a separator is
one `_` with a digit on each side of it; `afterDigit` says that a digit stands just before. -/
def hexDigitsFrom (acc : Nat) (afterDigit : Bool) : List Char → Option Nat
  | [] => if afterDigit then some acc else none
  | c :: cs =>
    if c = '_' then (if afterDigit then hexDigitsFrom acc false cs else none)
    else
      match digitValue c with
      | none => none
      | some v => hexDigitsFrom (acc * 16 + v) true cs

/-- A `0x` hex number. -/
def parseHex : List Char → Option Nat
  | '0' :: 'x' :: cs => hexDigitsFrom 0 false cs
  | _ => none

/-- "Numbers are decimal or `0x` hex" (30_encoding.md R144); a separator stands in hex only (00_scope.md R8). -/
def parseNumber (cs : List Char) : Option Nat :=
  if ['0', 'x'].isPrefixOf cs then parseHex cs else if cs = [] then none else digitsFrom 0 cs

/-- The tokens of a line, `cur` being the reversed token under way; blanks and commas separate them. -/
def tokensFrom (cur : List Char) : List Char → List (List Char)
  | [] => if cur = [] then [] else [cur.reverse]
  | c :: cs =>
    if c = ' ' ∨ c = ',' then (if cur = [] then tokensFrom [] cs else cur.reverse :: tokensFrom [] cs)
    else tokensFrom (c :: cur) cs

/-- The operand `key=<number>` if it comes next: its value, which must fit 16 bits, and the tokens after it. -/
def takeOperand (key : Char) (ts : List (List Char)) : Option (Option Nat × List (List Char)) :=
  match ts with
  | (k :: '=' :: num) :: rest =>
    if k = key then
      match parseNumber num with
      | none => none
      | some v => if v < 65536 then some (some v, rest) else none
    else some (none, ts)
  | _ => some (none, ts)

/-- A command-word line from its tokens; `.word` takes a hex number (30_encoding.md R144). -/
def parseTokens (ts : List (List Char)) : Option AsmLine :=
  match ts with
  | [] => none
  | ['.', 'w', 'o', 'r', 'd'] :: [num] =>
    match parseHex num with
    | none => none
    | some v => if v < 2 ^ 64 then some (.word (BitVec.ofNat 64 v)) else none
  | m :: ops =>
    match mnemonicOp m, takeOperand 'd' ops with
    | some op, some (d, ops1) =>
      match takeOperand 's' ops1 with
      | some (s, ops2) =>
        match takeOperand 'n' ops2 with
        | some (n, []) => some (.command op d s n)
        | _ => none
      | none => none
    | _, _ => none

/-- The word a line of text assembles to (30_encoding.md R144); `none` where the syntax does not cover the text. -/
def assemble (text : List Char) : Option Word := (parseTokens (tokensFrom [] text)).map assembleLine

/-! ### Host scripts (30_encoding.md R145) -/

/-- The byte offset of a register (10_state.md R44). -/
def regOffset : Reg → Nat
  | .id => 0x00
  | .hwcfg => 0x08
  | .ctrl => 0x10
  | .status => 0x18
  | .cmd => 0x20
  | .arg0 => 0x28
  | .arg1 => 0x30
  | .arg2 => 0x38
  | .arg3 => 0x40
  | .result0 => 0x48
  | .result1 => 0x50
  | .prngState => 0x58

/-- A target's offset: a register, or `@i` at `0x80000 + 8 i` (30_encoding.md R145). -/
def targetOffset : Target → BitVec 20
  | .reg r => BitVec.ofNat 20 (regOffset r)
  | .dmem i => BitVec.ofNat 20 (0x80000 + 8 * i)

/-- A decimal number `± digits * 10^exponent`. -/
structure Decimal where
  neg      : Bool
  digits   : Nat
  exponent : Int
deriving DecidableEq, Repr

/-- `f64(<decimal>)`: "the bits of the binary64 nearest that decimal" (30_encoding.md R145). -/
def decimalBits (x : Decimal) : F64 :=
  match x.exponent with
  | .ofNat e => fround x.neg (x.digits * 10 ^ e * unitsPerOne) 1
  | .negSucc e => fround x.neg (x.digits * unitsPerOne) (10 ^ (e + 1))

/-- A value of a script line (30_encoding.md R145). -/
inductive ScriptValue where
  | int (w : Word)
  | f64 (x : Decimal)
  | cmd (a : AsmLine)
deriving DecidableEq, Repr

/-- The 64 bits of a value (30_encoding.md R145). -/
def valueBits : ScriptValue → Word
  | .int w => w
  | .f64 x => decimalBits x
  | .cmd a => assembleLine a

/-- A script line. `wait` is the one loop: STATUS is read until bit 0 of the data is 0 (30_encoding.md R146). -/
inductive ScriptLine where
  | write (t : Target) (v : ScriptValue)
  | read (t : Target)
  | wait
deriving DecidableEq, Repr

/-- The pseudo-instructions (30_encoding.md R146). -/
inductive Pseudo where
  | lpc (D S N : Nat) (order : Word)
  | reson (D : Nat) (F BW RATE : Decimal)
  | pconv (D P LP : Nat) (Q LQ : Word)
  | yin (D S N : Nat) (SR FMIN FMAX THR : Decimal)
  | noise (D N : Nat) (seed : Word)
  | noisec (D N : Nat)
  | wait
  | clear
deriving DecidableEq, Repr

/-- The expansions of 30_encoding.md R146. -/
def expand : Pseudo → List ScriptLine
  | .lpc D S N order =>
    [.write (.reg .arg0) (.int order), .write (.reg .cmd) (.cmd (.command 1 (some D) (some S) (some N)))]
  | .reson D F BW RATE =>
    [.write (.reg .arg0) (.f64 F), .write (.reg .arg1) (.f64 BW), .write (.reg .arg2) (.f64 RATE),
      .write (.reg .cmd) (.cmd (.command 2 (some D) none none))]
  | .pconv D P LP Q LQ =>
    [.write (.reg .arg0) (.int Q), .write (.reg .arg1) (.int LQ),
      .write (.reg .cmd) (.cmd (.command 3 (some D) (some P) (some LP)))]
  | .yin D S N SR FMIN FMAX THR =>
    [.write (.reg .arg0) (.f64 SR), .write (.reg .arg1) (.f64 FMIN), .write (.reg .arg2) (.f64 FMAX),
      .write (.reg .arg3) (.f64 THR), .write (.reg .cmd) (.cmd (.command 4 (some D) (some S) (some N)))]
  | .noise D N seed =>
    [.write (.reg .arg0) (.int seed), .write (.reg .cmd) (.cmd (.command 5 (some D) none (some N)))]
  | .noisec D N => [.write (.reg .cmd) (.cmd (.command 6 (some D) none (some N)))]
  | .wait => [.wait]
  | .clear => [.write (.reg .status) (.int 0xE#64)]

/-- Whether the answer to a `wait` read ends the loop (30_encoding.md R146). -/
def waitEnds : Reply → Bool
  | .read data _ => !data.getLsbD 0
  | .write _ => false

/-- The transactions of a line; a `wait` that reads STATUS `polls` times is that many reads (30_encoding.md R145, R146). -/
def lineEvents (polls : Nat) : ScriptLine → List Event
  | .write t v => [.hwrite 8 (targetOffset t) (valueBits v)]
  | .read t => [.hread 8 (targetOffset t)]
  | .wait => List.replicate polls (.hread 8 (targetOffset (.reg .status)))

/-- The transactions of a pseudo-instruction. -/
def pseudoEvents (polls : Nat) (p : Pseudo) : List Event := (expand p).flatMap (lineEvents polls)

/-! ### The text of a host script (30_encoding.md R145, R146) -/

/-- The name of a register (10_state.md R44). -/
def registerName : Reg → List Char
  | .id => "ID".toList
  | .hwcfg => "HWCFG".toList
  | .ctrl => "CTRL".toList
  | .status => "STATUS".toList
  | .cmd => "CMD".toList
  | .arg0 => "ARG0".toList
  | .arg1 => "ARG1".toList
  | .arg2 => "ARG2".toList
  | .arg3 => "ARG3".toList
  | .result0 => "RESULT0".toList
  | .result1 => "RESULT1".toList
  | .prngState => "PRNG_STATE".toList

/-- A target: `@i`, whose offset must fit 20 bits, or a register name (30_encoding.md R145). -/
def parseTarget (cs : List Char) : Option Target :=
  match cs with
  | '@' :: num =>
    match parseNumber num with
    | none => none
    | some i => if i < 65536 then some (.dmem i) else none
  | _ =>
    ([.id, .hwcfg, .ctrl, .status, .cmd, .arg0, .arg1, .arg2, .arg3, .result0, .result1, .prngState].find? fun r =>
      registerName r = cs).map .reg

/-- The digits of a decimal, how many of them stand after the point, and the text after an `e`, if there is one. -/
def mantissaFrom (acc : Nat) (point : Option Nat) : List Char → Option (Nat × Nat × Option (List Char))
  | [] => some (acc, point.getD 0, none)
  | c :: cs =>
    if c = 'e' then some (acc, point.getD 0, some cs)
    else if c = '.' then (if point = none then mantissaFrom acc (some 0) cs else none)
    else
      match digitValue c with
      | none => none
      | some v => if v < 10 then mantissaFrom (acc * 10 + v) (point.map (· + 1)) cs else none

/-- A decimal exponent. -/
def parseExponent : Option (List Char) → Option Int
  | none => some 0
  | some ('-' :: c :: cs) => (digitsFrom 0 (c :: cs)).map fun n => -(n : Int)
  | some (c :: cs) => (digitsFrom 0 (c :: cs)).map fun n => (n : Int)
  | some [] => none

/-- An unsigned decimal: it starts with a digit. -/
def parseUnsigned (neg : Bool) (cs : List Char) : Option Decimal :=
  match cs with
  | [] => none
  | c :: _ =>
    match digitValue c, mantissaFrom 0 none cs with
    | some _, some (digits, places, e) => (parseExponent e).map fun x => { neg := neg, digits := digits, exponent := x - places }
    | _, _ => none

/-- A decimal. -/
def parseDecimal : List Char → Option Decimal
  | '-' :: cs => parseUnsigned true cs
  | cs => parseUnsigned false cs

/-- The text between `name` with an open parenthesis and the closing one that ends `cs`. -/
def insideCall (name cs : List Char) : Option (List Char) :=
  if name.isPrefixOf cs ∧ cs.getLast? = some ')' then some ((cs.drop name.length).dropLast) else none

/-- A 64-bit integer. -/
def parseWord (cs : List Char) : Option Word :=
  match parseNumber cs with
  | none => none
  | some v => if v < 2 ^ 64 then some (BitVec.ofNat 64 v) else none

/-- A value (30_encoding.md R145). -/
def parseValue (cs : List Char) : Option ScriptValue :=
  match insideCall "f64(".toList cs, insideCall "cmd(".toList cs with
  | some x, _ => (parseDecimal x).map .f64
  | none, some x => (parseTokens (tokensFrom [] x)).map .cmd
  | none, none => (parseWord cs).map .int

/-- The text without blanks at its ends. -/
def trim (cs : List Char) : List Char := ((cs.dropWhile (· = ' ')).reverse.dropWhile (· = ' ')).reverse

/-- A pseudo-instruction from its tokens (30_encoding.md R146). -/
def parsePseudo (ts : List (List Char)) : Option Pseudo :=
  match ts with
  | [] => none
  | name :: ops =>
    let ints := ops.map parseNumber
    let words := ops.map parseWord
    let decimals := ops.map parseDecimal
    if name = "lpc".toList then
      match ints, words with
      | [some D, some S, some N, _], [_, _, _, some order] => some (.lpc D S N order)
      | _, _ => none
    else if name = "reson".toList then
      match ints, decimals with
      | [some D, _, _, _], [_, some f, some bw, some rate] => some (.reson D f bw rate)
      | _, _ => none
    else if name = "pconv".toList then
      match ints, words with
      | [some D, some P, some LP, _, _], [_, _, _, some Q, some LQ] => some (.pconv D P LP Q LQ)
      | _, _ => none
    else if name = "yin".toList then
      match ints, decimals with
      | [some D, some S, some N, _, _, _, _], [_, _, _, some sr, some fmin, some fmax, some thr] =>
        some (.yin D S N sr fmin fmax thr)
      | _, _ => none
    else if name = "noise".toList then
      match ints, words with
      | [some D, some N, _], [_, _, some seed] => some (.noise D N seed)
      | _, _ => none
    else if name = "noisec".toList then
      match ints with
      | [some D, some N] => some (.noisec D N)
      | _ => none
    else if name = "wait".toList then (if ops = [] then some .wait else none)
    else if name = "clear".toList then (if ops = [] then some .clear else none)
    else none

/-- The fields of a pseudo-instruction's command word fit their 16 bits (30_encoding.md R143). -/
def Pseudo.fits : Pseudo → Bool
  | .lpc D S N _ => decide (D < 65536 ∧ S < 65536 ∧ N < 65536)
  | .reson D _ _ _ => decide (D < 65536)
  | .pconv D P LP _ _ => decide (D < 65536 ∧ P < 65536 ∧ LP < 65536)
  | .yin D S N _ _ _ _ => decide (D < 65536 ∧ S < 65536 ∧ N < 65536)
  | .noise D N _ => decide (D < 65536 ∧ N < 65536)
  | .noisec D N => decide (D < 65536 ∧ N < 65536)
  | .wait => true
  | .clear => true

/-- A line of a script: "A `;` starts a comment"; an empty line is no transaction (30_encoding.md R145). -/
def parseLine (text : List Char) : Option (List ScriptLine) :=
  let line := trim (text.takeWhile (· ≠ ';'))
  if line = [] then some []
  else if "write ".toList.isPrefixOf line then
    let rest := line.drop 6
    match parseTarget (trim (rest.takeWhile (· ≠ ','))), parseValue (trim ((rest.dropWhile (· ≠ ',')).drop 1)) with
    | some t, some v => some [.write t v]
    | _, _ => none
  else if "read ".toList.isPrefixOf line then (parseTarget (trim (line.drop 5))).map fun t => [.read t]
  else
    match parsePseudo (tokensFrom [] line) with
    | none => none
    | some p => if p.fits then some (expand p) else none

/-- The lines of a text. -/
def splitLines (cur : List Char) : List Char → List (List Char)
  | [] => [cur.reverse]
  | c :: cs => if c = '\n' then cur.reverse :: splitLines [] cs else splitLines (c :: cur) cs

/-- The lines of a script in order; `none` where one is not of the syntax. -/
def parseLines : List (List Char) → Option (List ScriptLine)
  | [] => some []
  | l :: ls =>
    match parseLine l, parseLines ls with
    | some a, some b => some (a ++ b)
    | _, _ => none

/-- The inputs a script's text stands for, each `wait` reading STATUS `polls` times. -/
def scriptEvents (polls : Nat) (text : List Char) : Option (List Event) :=
  (parseLines (splitLines [] text)).map fun ls => ls.flatMap (lineEvents polls)

end Sys2Proof.Machine
end

