-- ==== Sys2Proof/Safety.lean ====
section
/-! DEFINITION. What counts as a good state, a good completion and a safe run, in the terms the statements use. -/

namespace Sys2Proof.Machine

open Sys2Proof

/-- No word of DMEM is written in part, and none lies outside it (10_state.md R41, R42). -/
def State.DmemWhole (s : State) : Prop :=
  ∀ a, (s.dmem.read a).isSome → a / 8 < s.dmemWords ∧ (s.dmem.readWord (a / 8)).isSome

/-- STATUS tells one story (10_state.md R51-R56, R60, R61; 60_exceptions.md R242, R248): DONE is 0 while BUSY, ERRCODE is a code that
exists, an error leaves no result and no VOICED, and a voiced frame wrote exactly one word. -/
def State.StatusCoherent (s : State) : Prop :=
  (s.busy = true → s.done = false) ∧ s.errcode.toNat ≤ 4 ∧
    (s.errcode ≠ 0#8 → s.result0 = 0#64 ∧ s.result1 = 0#64 ∧ s.voiced = false) ∧
    (s.voiced = true → s.result0 = 1#64)

/-- RESULT0 is a number of DMEM words written (10_state.md R60), so at most all of them. -/
def State.ResultInMemory (s : State) : Prop := s.result0.toNat ≤ s.dmemWords

/-- The running command is the one CMD shows (10_state.md R58, R66). -/
def State.LatchShown (s : State) : Prop := s.busy = true → s.lat.cmd = s.cmd

/-- The invariant of the block: DMEM in canonical form, made of whole words inside `0 .. DMEM_WORDS-1`, DMEM_WORDS legal, and the
status and latch as the rules say. -/
structure State.Inv (s : State) : Prop where
  legalWords : Config.LegalDmemWords s.dmemWords
  memory     : s.dmem.wf
  whole      : s.DmemWhole
  status     : s.StatusCoherent
  result     : s.ResultInMemory
  latch      : s.LatchShown

/-- The words the completion of a command reads (20_memory.md R104; 30_encoding.md R137) are all written. -/
def State.OperandsWritten (s : State) : Instr → Prop
  | .lpc src _ n => (s.dmem.readWords src n).isSome
  | .reson _ _ _ => True
  | .pconv src _ lp =>
    (s.dmem.readWords src lp).isSome ∧ (s.dmem.readWords s.lat.arg.arg0.toNat s.lat.arg.arg1.toNat).isSome
  | .yin src _ n => (s.dmem.readWords src n).isSome
  | .noise _ _ _ => True
  | .noisec _ _ _ => True

/-- What a completion with code `0x00` leaves (60_exceptions.md R242): the words `ws` from word index `base` up, every byte outside
them as it was, and no other change than the fields named here. -/
structure State.CompletedOk (s t : State) (base : Nat) (ws : List Word) (r0 r1 : Nat) (voiced : Bool) (prng : U32) : Prop where
  stored  : ∀ j, j < ws.length → t.dmem.readWord (base + j) = ws[j]?
  kept    : ∀ a, a < 8 * base ∨ 8 * (base + ws.length) ≤ a → t.dmem.read a = s.dmem.read a
  changed : t = { s with
    dmem := t.dmem, result0 := BitVec.ofNat 64 r0, result1 := BitVec.ofNat 64 r1, voiced := voiced, prng := prng,
    errcode := 0x00#8, done := true, busy := false }

/-- The state a completion with the nonzero code `code` leaves (60_exceptions.md R248). -/
def State.completedWith (s : State) (code : BitVec 8) : State :=
  { s with
    result0 := 0#64, result1 := 0#64, voiced := false, errcode := code, err := true, done := true, busy := false }

/-- An outcome with its next state changed by `f`: for comparing two runs that differ only in what `f` overwrites. -/
def mapNext (f : State → State) : Host.Outcome State Fault Refusal → Host.Outcome State Fault Refusal
  | .next t => .next (f t)
  | .fault e => .fault e
  | .refused r => .refused r

/-- The magnitude of `r` is nearest to `n / d` units of 2^-1074 among the finite binary64 magnitudes, and its last fraction bit is
0 where another one is as near (00_scope.md R14). `n / d` lies below the midpoint of `r` and any greater `c`, and above the midpoint
of `r` and any smaller one. -/
def NearestEven (n d : Nat) (r : F64) : Prop :=
  ∀ c : F64, isFinite c = true →
    (fmag r < fmag c → 2 * n ≤ d * (fmag r + fmag c)) ∧
    (fmag c < fmag r → d * (fmag r + fmag c) ≤ 2 * n) ∧
    (fmag c ≠ fmag r → 2 * n = d * (fmag r + fmag c) → ffrac r % 2 = 0)

/-- `n / d` units of 2^-1074 reach the overflow threshold 2^1024 - 2^970, half a quantum above the greatest finite value. -/
def Overflows (n d : Nat) : Prop := d * ((2 ^ 54 - 1) * 2 ^ 2044) ≤ n

/-- `k` steps of the block. -/
def run (k : Nat) (s : State) : Host.Outcome State Fault Refusal := Sys2Proof.core.run k s

end Sys2Proof.Machine
end

