-- ==== Sys2Proof/Certificates/Slice0/Obligations.lean ====
section
/-! DEFINITION. The statements for the provers. Each docstring names the rules of spec/ it formalises; where it rests on a choice of
the model it names the log entry. -/

open Sys2Proof Sys2Proof.Machine

/-! ### Encoding -/

/-- Decoding the word of a well-formed command gives that command back, every field at every value (30_encoding.md R142, R143). -/
def Obligations.DecodeOfEncodeIsTheCommand : Prop :=
  ∀ i : Instr, i.WellFormed → decode (encode i) = .cmd i

/-- A word that decodes to a command is the word of that command, and the command is well-formed: no bit is dropped
(30_encoding.md R130, R142, R143). -/
def Obligations.EncodeOfDecodedIsTheWord : Prop :=
  ∀ (w : Word) (i : Instr), decode w = .cmd i → i.WellFormed ∧ encode i = w

/-- Decoding is total: OP outside 1..6 is illegal, else RSV not 0 is reserved, else the fields are OP, SRC, DST, LEN
(30_encoding.md R142). -/
def Obligations.DecodeTakesOpcodeThenReserved : Prop :=
  ∀ w : Word,
    ((w.extractLsb' 0 8).toNat ∉ [1, 2, 3, 4, 5, 6] → decode w = .illegal) ∧
    ((w.extractLsb' 0 8).toNat ∈ [1, 2, 3, 4, 5, 6] → w.extractLsb' 8 8 ≠ 0#8 → decode w = .reserved) ∧
    ((w.extractLsb' 0 8).toNat ∈ [1, 2, 3, 4, 5, 6] → w.extractLsb' 8 8 = 0#8 →
      ∃ i : Instr, decode w = .cmd i ∧ i.op = (w.extractLsb' 0 8).toNat ∧ i.src = (w.extractLsb' 16 16).toNat ∧
        i.dst = (w.extractLsb' 32 16).toNat ∧ i.len = (w.extractLsb' 48 16).toNat)

/-- The twelve words of 95_test_vectors.md §2.0 decode to what stands beside them there. -/
def Obligations.SampleWordsDecode : Prop :=
  decode 0x0100010000000001#64 = .cmd (.lpc 0 0x100 256) ∧
  decode 0x0004001000000001#64 = .cmd (.lpc 0 16 4) ∧
  decode 0x0000000300000002#64 = .cmd (.reson 0 3 0) ∧
  decode 0xFFFF0003FFFF0002#64 = .cmd (.reson 0xFFFF 3 0xFFFF) ∧
  decode 0x0003000800000003#64 = .cmd (.pconv 0 8 3) ∧
  decode 0x0008000800000004#64 = .cmd (.yin 0 8 8) ∧
  decode 0x0001000000000005#64 = .cmd (.noise 0 0 1) ∧
  decode 0xFFFFFFFFFFFF0006#64 = .cmd (.noisec 0xFFFF 0xFFFF 0xFFFF) ∧
  decode 0x0000000000000106#64 = .reserved ∧
  decode 0x0000000000000107#64 = .illegal ∧
  decode 0x00000000000000FF#64 = .illegal ∧
  decode 0x0000000000000000#64 = .illegal

/-! ### The step -/

/-- A step of a busy block at the core's turn is `exec` of the command its latched word decodes to: when the turn comes from the
schedule, on the state with that turn taken off, and when no input is left, on the state as it stands (60_exceptions.md R242, R243;
the turns are the model's form of the open completion time, log entries 6 and 7). -/
def Obligations.StepRunsDecodedCommand : Prop :=
  ∀ (s : State) (i : Instr), s.busy = true → decode s.lat.cmd = .cmd i →
    (s.schedule = [] → step s = exec i s) ∧
    (∀ rest, s.schedule = .coreTurn :: rest → step s = exec i { s with schedule := rest })

/-- A step with a host transaction next performs exactly that transaction on the state with it taken off the schedule: transactions
take effect one at a time in the order issued (20_memory.md R108, R109; the schedule is the model's, log entry 6). -/
def Obligations.StepTakesInputsInOrder : Prop :=
  ∀ (s : State) (rest : List Event) (size : Nat) (off : BitVec 20) (v : Word),
    (s.schedule = .hread size off :: rest → step s = hread { s with schedule := rest } size off) ∧
    (s.schedule = .hwrite size off v :: rest → step s = hwrite { s with schedule := rest } size off v)

/-- An illegal word is accepted like any other, and its completion carries code 0x01; a legal opcode with RSV not 0 completes with
code 0x02; both with the effects of an error and no others (30_encoding.md R132, R139; 60_exceptions.md R248). Which step completes it
is the model's choice: the core's turn, taken off the schedule (DESIGN CHOICE, log entry 6), or the step with no input left (DESIGN
CHOICE, log entry 7). -/
def Obligations.MalformedWordsCompleteWithTheirCode : Prop :=
  ∀ w : Word,
    (∀ (s : State) (off : BitVec 20), off.toNat = 0x20 → s.busy = false →
      ∃ t, hwrite s 8 off w = .next t ∧ t.busy = true ∧ t.lat.cmd = w ∧ t.reply = some (.write .okay)) ∧
    (∀ s u : State, s.busy = true → s.lat.cmd = w →
      (s.schedule = [] ∧ u = s ∨ ∃ rest, s.schedule = .coreTurn :: rest ∧ u = { s with schedule := rest }) →
      ((w.extractLsb' 0 8).toNat ∉ [1, 2, 3, 4, 5, 6] → step s = .next (u.completedWith 0x01#8)) ∧
      ((w.extractLsb' 0 8).toNat ∈ [1, 2, 3, 4, 5, 6] → w.extractLsb' 8 8 ≠ 0#8 → step s = .next (u.completedWith 0x02#8)))

/-- An idle block with no host transaction next changes nothing but, at a turn of the core, the schedule that gave it
(60_exceptions.md R262, R242; 70_reset_and_hazards.md R272). That a turn of the core can be given to an idle block, and that a step
with no input left is such a turn, is the model's choice (DESIGN CHOICE, log entries 6 and 7). -/
def Obligations.IdleBlockChangesNothing : Prop :=
  ∀ s : State, s.busy = false →
    (s.schedule = [] → step s = .next s) ∧
    (∀ rest, s.schedule = .coreTurn :: rest → step s = .next { s with schedule := rest })

/-! ### Reset -/

/-- What reset leaves, in the values the spec gives (70_reset_and_hazards.md R270, R272): every field named there, every DMEM word
unwritten, `irq` low, ID and HWCFG their constants (DMEM_WORDS being the reference value, log entry 3). -/
def Obligations.ResetLeavesTheSpecValues : Prop :=
  let s := State.reset
  s.ctrlIe = false ∧ s.busy = false ∧ s.done = false ∧ s.err = false ∧ s.ovr = false ∧ s.voiced = false ∧
  s.errcode = 0x00#8 ∧ s.cmd = 0#64 ∧ s.arg.arg0 = 0#64 ∧ s.arg.arg1 = 0#64 ∧ s.arg.arg2 = 0#64 ∧ s.arg.arg3 = 0#64 ∧
  s.result0 = 0#64 ∧ s.result1 = 0#64 ∧ s.prng = 0#32 ∧ (∀ i, s.dmem.readWord i = none) ∧ s.irq = false ∧
  s.readReg .id = 0x484D494300010000#64 ∧ s.readReg .hwcfg = 0x0000000F00001000#64 ∧ s.readReg .status = 0#64

/-- The reset input at any moment, a command running or not: every register at its reset value, every DMEM word unwritten, no
command in flight, no completion (70_reset_and_hazards.md R270, R271); DMEM_WORDS and the inputs still to come stay (log entries 3
and 6). -/
def Obligations.ResetInputAbandonsTheCommand : Prop :=
  ∀ (s : State) (rest : List Event), s.schedule = .rst :: rest →
    ∃ t, step s = .next t ∧ t.busy = false ∧ t.done = false ∧ t.err = false ∧ t.ovr = false ∧ t.voiced = false ∧
      t.errcode = 0x00#8 ∧ t.ctrlIe = false ∧ t.cmd = 0#64 ∧ t.result0 = 0#64 ∧ t.result1 = 0#64 ∧ t.prng = 0#32 ∧
      t.arg = { arg0 := 0#64, arg1 := 0#64, arg2 := 0#64, arg3 := 0#64 } ∧ (∀ i, t.dmem.readWord i = none) ∧
      t.irq = false ∧ t.dmemWords = s.dmemWords ∧ t.schedule = rest

/-! ### The host port -/

/-- A transaction answered with ERROR reads data 0x0 and changes nothing in the block (20_memory.md R93). -/
def Obligations.BusErrorChangesNothing : Prop :=
  ∀ (s t : State) (size : Nat) (off : BitVec 20),
    (∀ d, hread s size off = .next t → t.reply = some (.read d .error) → d = 0#64 ∧ t = { s with reply := t.reply }) ∧
    (∀ v, hwrite s size off v = .next t → t.reply = some (.write .error) → t = { s with reply := t.reply })

/-- The causes of an ERROR response are a size other than 8, a misaligned offset, an unmapped offset, a DMEM access while BUSY and a
PRNG_STATE write while BUSY, and nothing else; a CMD write while BUSY is dropped, gets OKAY and sets OVR, and
CMD, the latch and all else stay (60_exceptions.md R250, R251). -/
def Obligations.ErrorResponseExactlyWhen : Prop :=
  ∀ (s : State) (size : Nat) (off : BitVec 20) (v : Word),
    let unmapped := (0x60 ≤ off.toNat ∧ off.toNat < 0x80000) ∨ 0x80000 + 8 * s.dmemWords ≤ off.toNat
    let shape := size ≠ 8 ∨ off.toNat % 8 ≠ 0 ∨ unmapped
    (hread s size off = .next { s with reply := some (.read 0#64 .error) } ↔
      shape ∨ (s.busy = true ∧ 0x80000 ≤ off.toNat)) ∧
    (hwrite s size off v = .next { s with reply := some (.write .error) } ↔
      shape ∨ (s.busy = true ∧ (0x80000 ≤ off.toNat ∨ off.toNat = 0x58))) ∧
    (s.busy = true → off.toNat = 0x20 →
      hwrite s 8 off v = .next { s with ovr := true, reply := some (.write .okay) })

/-- A host read changes nothing but the answer at the port, so the same read again gives the same answer (20_memory.md R107). -/
def Obligations.HostReadsHaveNoSideEffect : Prop :=
  ∀ (s t : State) (size : Nat) (off : BitVec 20), hread s size off = .next t →
    t = { s with reply := t.reply } ∧ hread t size off = .next t

/-- A host read of each of the twelve offsets, BUSY or not, answers OKAY with that register's value, reserved bits 0 (10_state.md
R44, R46, R47, R48, R58, R59, R60, R61, R63; 20_memory.md R97). STATUS has BUSY, DONE, ERR, OVR and VOICED in bits 0 to 4, ERRCODE in
bits 15:8, and 0 everywhere else (10_state.md R50). -/
def Obligations.RegisterReadsFollowTheMap : Prop :=
  (∀ (s : State) (off : BitVec 20) (v : Word),
    ((off.toNat = 0x00 ∧ v = 0x484D494300010000#64) ∨
     (off.toNat = 0x08 ∧ v = 0#28 ++ 0xF#4 ++ BitVec.ofNat 32 s.dmemWords) ∨
     (off.toNat = 0x10 ∧ v = (BitVec.ofBool s.ctrlIe).zeroExtend 64) ∨
     (off.toNat = 0x18 ∧ v = s.status) ∨ (off.toNat = 0x20 ∧ v = s.cmd) ∨
     (off.toNat = 0x28 ∧ v = s.arg.arg0) ∨ (off.toNat = 0x30 ∧ v = s.arg.arg1) ∨
     (off.toNat = 0x38 ∧ v = s.arg.arg2) ∨ (off.toNat = 0x40 ∧ v = s.arg.arg3) ∨
     (off.toNat = 0x48 ∧ v = s.result0) ∨ (off.toNat = 0x50 ∧ v = s.result1) ∨
     (off.toNat = 0x58 ∧ v = s.prng.zeroExtend 64)) →
    hread s 8 off = .next { s with reply := some (.read v .okay) }) ∧
  (∀ s : State,
    s.status.getLsbD 0 = s.busy ∧ s.status.getLsbD 1 = s.done ∧ s.status.getLsbD 2 = s.err ∧
    s.status.getLsbD 3 = s.ovr ∧ s.status.getLsbD 4 = s.voiced ∧ s.status.extractLsb' 5 3 = 0#3 ∧
    s.status.extractLsb' 8 8 = s.errcode ∧ s.status.extractLsb' 16 48 = 0#48)

/-- Acceptance: a CMD write while idle latches the word, ARG0..ARG3 and PRNG_STATE, sets BUSY, clears DONE and changes nothing else
(60_exceptions.md R241). -/
def Obligations.CmdWriteWhileIdleAccepts : Prop :=
  ∀ (s : State) (off : BitVec 20) (w : Word), off.toNat = 0x20 → s.busy = false →
    hwrite s 8 off w = .next { s with
      cmd := w, lat := { cmd := w, arg := s.arg, prng := s.prng }, busy := true, done := false,
      reply := some (.write .okay) }

/-- A STATUS write clears DONE, ERR and OVR where bits 1, 2 and 3 of the value are 1, and does nothing else, BUSY or not (10_state.md
R57). -/
def Obligations.StatusWriteClearsBits : Prop :=
  ∀ (s : State) (off : BitVec 20) (v : Word), off.toNat = 0x18 →
    hwrite s 8 off v = .next { s with
      done := if v.getLsbD 1 then false else s.done
      err := if v.getLsbD 2 then false else s.err
      ovr := if v.getLsbD 3 then false else s.ovr
      reply := some (.write .okay) }

/-- A CTRL write sets IE to bit 0 of the value, BUSY or not, and nothing else; CTRL then reads as that bit with 63 zeros above it,
and as 0 after reset (10_state.md R48). -/
def Obligations.CtrlWriteSetsInterruptEnable : Prop :=
  State.reset.ctrlIe = false ∧ State.reset.readReg .ctrl = 0#64 ∧ ∀ (s : State) (off : BitVec 20) (v : Word), off.toNat = 0x10 →
    ∃ t, hwrite s 8 off v = .next t ∧ t = { s with ctrlIe := v.getLsbD 0, reply := some (.write .okay) } ∧
      hread t 8 off = .next { t with reply := some (.read (v &&& 1#64) .okay) }

/-- The other register writes: ARG0..ARG3 store the value in that register alone, BUSY or not, so that the latch keeps what
acceptance copied (10_state.md R59; 70_reset_and_hazards.md R282); PRNG_STATE stores bits 31:0 while idle and gets ERROR while BUSY
(10_state.md R63; 20_memory.md R101); ID, HWCFG, RESULT0 and RESULT1 ignore the write with OKAY (10_state.md R45). -/
def Obligations.OtherRegisterWrites : Prop :=
  ∀ (s : State) (off : BitVec 20) (v : Word),
    let okay := fun (t : State) => hwrite s 8 off v = .next { t with reply := some (.write .okay) }
    (off.toNat = 0x28 → okay { s with arg := { s.arg with arg0 := v } }) ∧
    (off.toNat = 0x30 → okay { s with arg := { s.arg with arg1 := v } }) ∧
    (off.toNat = 0x38 → okay { s with arg := { s.arg with arg2 := v } }) ∧
    (off.toNat = 0x40 → okay { s with arg := { s.arg with arg3 := v } }) ∧
    (off.toNat = 0x58 → s.busy = false → okay { s with prng := v.extractLsb' 0 32 }) ∧
    (off.toNat = 0x58 → s.busy = true → hwrite s 8 off v = .next { s with reply := some (.write .error) }) ∧
    (off.toNat = 0x00 ∨ off.toNat = 0x08 ∨ off.toNat = 0x48 ∨ off.toNat = 0x50 → okay s)

/-- The DMEM window while idle: a write stores any 64-bit pattern in its word, marks it written, leaves every byte outside the word and
every register as it was, and gets OKAY; reading the word then gives the pattern; reading any written word, whoever wrote it, gives it
with OKAY and changes nothing else; and reading an unwritten word is the fault UNINIT (20_memory.md R99, R100, R115; 10_state.md
R42). -/
def Obligations.DmemWriteReadsBack : Prop :=
  ∀ (s : State) (off : BitVec 20) (i : Nat) (v : Word),
    s.busy = false → i < s.dmemWords → off.toNat = 0x80000 + 8 * i →
    (∃ t, hwrite s 8 off v = .next t ∧ t = { s with dmem := t.dmem, reply := some (.write .okay) } ∧
      t.dmem.readWord i = some v ∧ (∀ a, a < 8 * i ∨ 8 * i + 8 ≤ a → t.dmem.read a = s.dmem.read a) ∧
      hread t 8 off = .next { t with reply := some (.read v .okay) }) ∧
    (∀ w, s.dmem.readWord i = some w → hread s 8 off = .next { s with reply := some (.read w .okay) }) ∧
    (s.dmem.readWord i = none → hread s 8 off = .fault .uninit)

/-- The interrupt line: every completion drives it to IE, the next acceptance and a STATUS write with bit 1 lower it, a CTRL write
makes it `v[0] AND DONE` at once, and an overrun leaves it (10_state.md R62; 60_exceptions.md R252). -/
def Obligations.InterruptLineFollowsDone : Prop :=
  (∀ s t : State, s.busy = true → complete s = .next t → t.irq = s.ctrlIe) ∧
  (∀ (s t : State) (off : BitVec 20) (v : Word), hwrite s 8 off v = .next t →
    (off.toNat = 0x20 → s.busy = false → t.irq = false) ∧
    (off.toNat = 0x20 → s.busy = true → t.irq = s.irq) ∧
    (off.toNat = 0x18 → t.irq = (s.irq && !v.getLsbD 1)) ∧
    (off.toNat = 0x10 → t.irq = (v.getLsbD 0 && s.done)))

/-! ### Completion: where each command completes, and its frame -/

/-- LPC runs on every well-formed configuration whose windows lie in DMEM and whose samples are written: the `order + 1`
coefficients of Burg's recursion go to DST, RESULT0 is their number, RESULT1 the completed stages, and nothing else changes but
what every completion writes (40_lpc.md R160; 60_exceptions.md R242). -/
def Obligations.LpcCompletes : Prop :=
  ∀ (s : State) (src dst n : Nat) (x : List Word),
    let p := s.lat.arg.arg0.toNat
    n ≠ 0 → p ≠ 0 → src + n ≤ s.dmemWords → dst + p + 1 ≤ s.dmemWords → s.dmem.readWords src n = some x →
    ∃ t, exec (.lpc src dst n) s = .next t ∧ (burg x p).1.length = p + 1 ∧
      State.CompletedOk s t dst (burg x p).1 (p + 1) (burg x p).2 false s.prng

/-- RESON runs for every finite positive rate, whatever the frequency and bandwidth: the three words are `1.0`, `-2 r cos θ` and `r r`
with `θ` and `r` from R181 and R182 (41_resonance.md R180, R181, R182, R183). -/
def Obligations.ResonCompletes : Prop :=
  ∀ (s : State) (src dst len : Nat),
    let f := s.lat.arg.arg0
    let bw := s.lat.arg.arg1
    let rate := s.lat.arg.arg2
    let theta := fdiv (fmul 0x401921FB54442D18#64 f) rate
    let r := fexp (fdiv (fmul 0xC00921FB54442D18#64 bw) rate)
    isFinite rate = true → fgt rate 0#64 = true → dst + 3 ≤ s.dmemWords →
    ∃ t, exec (.reson src dst len) s = .next t ∧
      State.CompletedOk s t dst
        [0x3FF0000000000000#64, fmul (fmul 0xC000000000000000#64 r) (fcos theta), fmul r r] 3 0 false s.prng

/-- PCONV runs on every two written, nonempty windows in DMEM, overlapping or not: the `lp + lq - 1` words of the product go to DST,
after all reads (41_resonance.md R185; 20_memory.md R105). -/
def Obligations.PconvCompletes : Prop :=
  ∀ (s : State) (src dst lp : Nat) (p q : List Word),
    let qb := s.lat.arg.arg0.toNat
    let lq := s.lat.arg.arg1.toNat
    lp ≠ 0 → lq ≠ 0 → src + lp ≤ s.dmemWords → qb + lq ≤ s.dmemWords → dst + lp + lq - 1 ≤ s.dmemWords →
    s.dmem.readWords src lp = some p → s.dmem.readWords qb lq = some q →
    ∃ t, exec (.pconv src dst lp) s = .next t ∧ (conv p q).length = lp + lq - 1 ∧
      State.CompletedOk s t dst (conv p q) (lp + lq - 1) 0 false s.prng

/-- YIN runs on every frame its checks admit, for any threshold: voiced, it writes the pitch to DST with RESULT0 = 1, RESULT1 = tau
and VOICED = 1; unvoiced, it writes no word and leaves RESULT0, RESULT1 and VOICED 0 (42_yin.md R200, R206, R208). -/
def Obligations.YinCompletes : Prop :=
  ∀ (s : State) (src dst n : Nat) (fr : List Word),
    let sr := s.lat.arg.arg0
    let fmin := s.lat.arg.arg1
    let fmax := s.lat.arg.arg2
    let thr := s.lat.arg.arg3
    n ≠ 0 → isFinite sr = true → fgt sr 0#64 = true → fgt fmin 0#64 = true → flt fmin fmax = true →
    src + n ≤ s.dmemWords → dst + 1 ≤ s.dmemWords → s.dmem.readWords src n = some fr →
    ∃ t, exec (.yin src dst n) s = .next t ∧
      (∀ tau pitch, yinEstimate fr sr fmin fmax thr = some (tau, pitch) →
        State.CompletedOk s t dst [pitch] 1 tau true s.prng) ∧
      (yinEstimate fr sr fmin fmax thr = none →
        State.CompletedOk s t dst [] 0 0 false s.prng ∧ t.dmem = s.dmem)

/-- NOISE and NOISEC run for every window in DMEM: NOISE writes `n` samples from the seed ARG0[31:0], whatever bits 63:32 hold, NOISEC
from the latched PRNG_STATE, and each leaves the generator's final state in PRNG_STATE (43_prng.md R220, R224, R225, R226). -/
def Obligations.NoiseCommandsComplete : Prop :=
  ∀ (s : State) (src dst n : Nat),
    let seed := s.lat.arg.arg0.extractLsb' 0 32
    n ≠ 0 → dst + n ≤ s.dmemWords →
    (∃ t, exec (.noise src dst n) s = .next t ∧ (gauss seed n).1.length = n ∧
      State.CompletedOk s t dst (gauss seed n).1 n 0 false (gauss seed n).2) ∧
    (∃ t, exec (.noisec src dst n) s = .next t ∧ (gauss s.lat.prng n).1.length = n ∧
      State.CompletedOk s t dst (gauss s.lat.prng n).1 n 0 false (gauss s.lat.prng n).2)

/-! ### Error completions -/

/-- ARGUMENT is reported exactly in the cases of the table of R245, row by row (60_exceptions.md R245). -/
def Obligations.ArgumentErrorExactlyWhen : Prop :=
  ∀ (i : Instr) (s : State),
    let a := s.lat.arg
    let malformed : Prop :=
      match i with
      | .lpc _ _ n => n = 0 ∨ a.arg0.toNat = 0
      | .reson _ _ _ => ¬ (isFinite a.arg2 = true ∧ fgt a.arg2 0#64 = true)
      | .pconv _ _ lp => lp = 0 ∨ a.arg1.toNat = 0
      | .yin _ _ n =>
        n = 0 ∨ ¬ (isFinite a.arg0 = true ∧ fgt a.arg0 0#64 = true) ∨ ¬ fgt a.arg1 0#64 = true
          ∨ ¬ flt a.arg1 a.arg2 = true
      | .noise _ _ n => n = 0
      | .noisec _ _ n => n = 0
    (malformed → exec i s = .next (s.completedWith 0x03#8)) ∧
    (∀ t, exec i s = .next t → t.errcode = 0x03#8 → malformed)

/-- RANGE is reported exactly in the cases of the table of R246, row by row, when ARGUMENT is not; all sums are unbounded
(60_exceptions.md R246, R247). -/
def Obligations.RangeErrorExactlyWhen : Prop :=
  ∀ (i : Instr) (s : State),
    let a := s.lat.arg
    let W := s.dmemWords
    let outside : Prop :=
      match i with
      | .lpc src dst n => W < src + n ∨ W < dst + a.arg0.toNat + 1
      | .reson _ dst _ => W < dst + 3
      | .pconv src dst lp =>
        W < src + lp ∨ W < a.arg0.toNat + a.arg1.toNat ∨ W < dst + lp + a.arg1.toNat - 1
      | .yin src dst n => W < src + n ∨ W < dst + 1
      | .noise _ dst n => W < dst + n
      | .noisec _ dst n => W < dst + n
    (argumentInvalid i s.lat = false → outside → exec i s = .next (s.completedWith 0x04#8)) ∧
    (∀ t, exec i s = .next t → t.errcode = 0x04#8 → outside)

/-- A command that completes with a code other than 0x00 has the effects of R248 and no others: no DMEM write, PRNG_STATE unchanged,
RESULT0, RESULT1 and VOICED 0, ERRCODE the code, ERR and DONE set, BUSY cleared (60_exceptions.md R248). -/
def Obligations.ErrorCompletionEffects : Prop :=
  ∀ s t : State, complete s = .next t → t.errcode ≠ 0x00#8 →
    t = { s with
      result0 := 0#64, result1 := 0#64, voiced := false, errcode := t.errcode, err := true, done := true, busy := false }

/-- The code a completion reports is the first failing check's, in the order OPCODE, RESERVED, ARGUMENT, RANGE, and 0x00 when none
fails; a nonzero code is all that is recorded of the failure (60_exceptions.md R243, R247). -/
def Obligations.FirstFailingCheckIsReported : Prop :=
  ∀ s t : State, complete s = .next t →
    let code :=
      match decode s.lat.cmd with
      | .illegal => 0x01#8
      | .reserved => 0x02#8
      | .cmd i =>
        if argumentInvalid i s.lat then 0x03#8
        else if rangeInvalid s.dmemWords i s.lat then 0x04#8
        else 0x00#8
    t.errcode = code ∧ (code ≠ 0x00#8 → t = s.completedWith code)

/-- Once the checks pass a command never fails but by reading an unwritten word: with its operands written every command completes,
with DONE set and BUSY clear, and the only stop there is is UNINIT, after both checks, on an unwritten operand; no command is
refused (60_exceptions.md R243, R249; 20_memory.md R115). -/
def Obligations.CommandsStopOnlyOnUnwrittenOperands : Prop :=
  ∀ (i : Instr) (s : State),
    (s.OperandsWritten i → ∃ t, exec i s = .next t ∧ t.done = true ∧ t.busy = false) ∧
    (∀ f, exec i s = .fault f ↔
      f = .uninit ∧ argumentInvalid i s.lat = false ∧ rangeInvalid s.dmemWords i s.lat = false ∧ ¬ s.OperandsWritten i) ∧
    (∀ r, exec i s ≠ .refused r)

/-! ### Whole-machine rules -/

/-- Only acceptance sets BUSY, and only completion or reset clears it; each of them does so every time (10_state.md R51). That a busy
block completes at the core's turn of the schedule, and at every step with no input left, is the model's choice (DESIGN CHOICE, log
entries 6 and 7). -/
def Obligations.BusySetByAcceptanceClearedByCompletion : Prop :=
  ∀ s t : State, step s = .next t →
    (s.busy = false → t.busy = true →
      ∃ off v rest, off.toNat = 0x20 ∧ s.schedule = .hwrite 8 off v :: rest ∧ t.cmd = v ∧ t.lat.cmd = v) ∧
    (s.busy = true → t.busy = false →
      s.schedule = [] ∨ (∃ rest, s.schedule = .coreTurn :: rest) ∨ ∃ rest, s.schedule = .rst :: rest) ∧
    (s.busy = true → (s.schedule = [] ∨ ∃ rest, s.schedule = .coreTurn :: rest) → t.busy = false) ∧
    (∀ off v rest, s.busy = false → off.toNat = 0x20 → s.schedule = .hwrite 8 off v :: rest → t.busy = true) ∧
    (∀ rest, s.schedule = .rst :: rest → t.busy = false)

/-- ERR is sticky: it is cleared only by a STATUS write with bit 2 set or by reset, and set only by a completion with a nonzero code,
each of which sets it (10_state.md R53). That the core's turn of the schedule and a busy step with no input left are the
completions is the model's choice (DESIGN CHOICE, log entries 6 and 7). -/
def Obligations.ErrIsSticky : Prop :=
  ∀ s t : State, step s = .next t →
    let coreMoves := s.busy = true ∧ (s.schedule = [] ∨ ∃ rest, s.schedule = .coreTurn :: rest)
    (s.err = true → t.err = false →
      (∃ rest, s.schedule = .rst :: rest) ∨
      ∃ off v rest, off.toNat = 0x18 ∧ v.getLsbD 2 = true ∧ s.schedule = .hwrite 8 off v :: rest) ∧
    (s.err = false → t.err = true → coreMoves ∧ t.errcode ≠ 0x00#8) ∧
    (coreMoves → t.errcode ≠ 0x00#8 → t.err = true) ∧ (coreMoves → t.errcode = 0x00#8 → t.err = s.err)

/-- OVR is sticky: it is set exactly by a CMD write while BUSY, and cleared only by a STATUS write with bit 3 set or by reset
(10_state.md R54). -/
def Obligations.OvrIsSticky : Prop :=
  ∀ s t : State, step s = .next t →
    (s.ovr = true → t.ovr = false →
      (∃ rest, s.schedule = .rst :: rest) ∨
      ∃ off v rest, off.toNat = 0x18 ∧ v.getLsbD 3 = true ∧ s.schedule = .hwrite 8 off v :: rest) ∧
    (s.ovr = false → t.ovr = true →
      s.busy = true ∧ ∃ off v rest, off.toNat = 0x20 ∧ s.schedule = .hwrite 8 off v :: rest) ∧
    (∀ off v rest, s.busy = true → off.toNat = 0x20 → s.schedule = .hwrite 8 off v :: rest → t.ovr = true)

/-- VOICED becomes 1 exactly when a YIN command completed with code 0x00 and found an estimate; every other completion writes 0, and
acceptance leaves it (10_state.md R55). -/
def Obligations.VoicedExactlyForVoicedYin : Prop :=
  (∀ s t : State, complete s = .next t →
    (t.voiced = true ↔
      t.errcode = 0x00#8 ∧ ∃ src dst n fr, decode s.lat.cmd = .cmd (.yin src dst n) ∧
        s.dmem.readWords src n = some fr ∧
        (yinEstimate fr s.lat.arg.arg0 s.lat.arg.arg1 s.lat.arg.arg2 s.lat.arg.arg3).isSome = true)) ∧
  (∀ (s t : State) (off : BitVec 20) (w : Word), off.toNat = 0x20 → s.busy = false → hwrite s 8 off w = .next t →
    t.voiced = s.voiced)

/-- PRNG_STATE changes only by reset, by a host write to it while idle, and by the successful completion of NOISE or NOISEC
(10_state.md R63; 43_prng.md R227; 60_exceptions.md R248). Which steps are completions is the model's choice (DESIGN CHOICE, log
entries 6 and 7). -/
def Obligations.PrngStateHasThreeWriters : Prop :=
  ∀ s t : State, step s = .next t → t.prng ≠ s.prng →
    (∃ rest, s.schedule = .rst :: rest) ∨
    (s.busy = false ∧ ∃ off v rest, off.toNat = 0x58 ∧ s.schedule = .hwrite 8 off v :: rest ∧ t.prng = v.extractLsb' 0 32) ∨
    (s.busy = true ∧ (s.schedule = [] ∨ ∃ rest, s.schedule = .coreTurn :: rest) ∧ t.errcode = 0x00#8 ∧
      ∃ src dst n, decode s.lat.cmd = .cmd (.noise src dst n) ∨ decode s.lat.cmd = .cmd (.noisec src dst n))

/-- While a command runs, DMEM, PRNG_STATE, CMD, the latch and the previous results do not change: whatever the host does, a step that
leaves BUSY set leaves them as they are (20_memory.md R101, R105, R114; 70_reset_and_hazards.md R283). -/
def Obligations.BusyHoldsOperandsAndResults : Prop :=
  ∀ s t : State, step s = .next t → s.busy = true → t.busy = true →
    t.dmem = s.dmem ∧ t.prng = s.prng ∧ t.cmd = s.cmd ∧ t.lat = s.lat ∧ t.errcode = s.errcode ∧
      t.voiced = s.voiced ∧ t.result0 = s.result0 ∧ t.result1 = s.result1

/-- A completion reads only the latch, DMEM and the parameter DMEM_WORDS: two states that agree on these complete alike, whatever their
live ARG registers, CMD, PRNG_STATE, CTRL.IE, STATUS bits, ERRCODE, RESULT registers, port and inputs to come are. It writes DMEM,
RESULT0, RESULT1, VOICED, ERRCODE, DONE and BUSY with the same values from both; ERR it only ever sets, with a nonzero code;
PRNG_STATE it writes only for NOISE or NOISEC with code 0x00; and it writes no ARG register, no CMD, no latch, no CTRL and no OVR
(10_state.md R53, R63, R66; 20_memory.md R114; 43_prng.md R227; 60_exceptions.md R242, R248). -/
def Obligations.CompletionReadsOnlyTheLatch : Prop :=
  ∀ s u : State, u.lat = s.lat → u.dmem = s.dmem → u.dmemWords = s.dmemWords →
    let generates :=
      match decode s.lat.cmd with
      | .illegal => false
      | .reserved => false
      | .cmd (.lpc _ _ _) => false
      | .cmd (.reson _ _ _) => false
      | .cmd (.pconv _ _ _) => false
      | .cmd (.yin _ _ _) => false
      | .cmd (.noise _ _ _) => true
      | .cmd (.noisec _ _ _) => true
    complete u = mapNext
      (fun t => { u with
        dmem := t.dmem, result0 := t.result0, result1 := t.result1, voiced := t.voiced, errcode := t.errcode,
        err := u.err || t.errcode != 0x00#8, prng := if generates && t.errcode == 0x00#8 then t.prng else u.prng,
        done := true, busy := false })
      (complete s)

/-- The fields and ARG registers a command ignores do not matter to it: SRC and LEN of RESON, SRC of NOISE and NOISEC, and the
latched ARG registers marked with a dash (30_encoding.md R137, R140). -/
def Obligations.IgnoredOperandsDoNotMatter : Prop :=
  ∀ (s : State) (src src' dst len len' : Nat) (b : Args),
    let a := s.lat.arg
    let withArgs := fun (a' : Args) (t : State) => { t with lat := { t.lat with arg := a' } }
    let lpcArgs : Args := { b with arg0 := a.arg0 }
    let resonArgs : Args := { a with arg3 := b.arg3 }
    let pconvArgs : Args := { b with arg0 := a.arg0, arg1 := a.arg1 }
    exec (.reson src dst len) s = exec (.reson src' dst len') s ∧
    exec (.noise src dst len) s = exec (.noise src' dst len) s ∧
    exec (.noisec src dst len) s = exec (.noisec src' dst len) s ∧
    exec (.lpc src dst len) (withArgs lpcArgs s) = mapNext (withArgs lpcArgs) (exec (.lpc src dst len) s) ∧
    exec (.reson src dst len) (withArgs resonArgs s) = mapNext (withArgs resonArgs) (exec (.reson src dst len) s) ∧
    exec (.pconv src dst len) (withArgs pconvArgs s) = mapNext (withArgs pconvArgs) (exec (.pconv src dst len) s) ∧
    exec (.noise src dst len) (withArgs lpcArgs s) = mapNext (withArgs lpcArgs) (exec (.noise src dst len) s) ∧
    exec (.noisec src dst len) (withArgs b s) = mapNext (withArgs b) (exec (.noisec src dst len) s)

/-- The invariant holds at reset (70_reset_and_hazards.md R270, with the reset values the model names, log entries 3 and 5). -/
def Obligations.InvariantHoldsAtReset : Prop := State.reset.Inv

/-- Every step keeps the invariant, from every state that meets it: DMEM in canonical form, made of whole words inside
`0 .. DMEM_WORDS-1`; DMEM_WORDS legal; DONE 0 while BUSY; ERRCODE a code that exists; results and VOICED as the code says; RESULT0 at
most DMEM_WORDS; and the latched word the one CMD shows (10_state.md R42, R51-R56, R58, R60; 60_exceptions.md R244, R246, R248). -/
def Obligations.StepKeepsTheInvariant : Prop :=
  ∀ s t : State, s.Inv → step s = .next t → t.Inv

/-- Completion is eventual: from any busy state whose schedule asserts no reset, some number of steps not above the inputs still to
come plus one reaches a completed, idle block, or stops at a UNINIT fault (70_reset_and_hazards.md R285; that the core moves once no
input is left is the model's form of fairness, log entry 7). -/
def Obligations.CompletionIsEventual : Prop :=
  ∀ s : State, s.busy = true → Event.rst ∉ s.schedule →
    ∃ k, k ≤ s.schedule.length + 1 ∧
      ((∃ t, run k s = .next t ∧ t.busy = false ∧ t.done = true) ∨ run k s = .fault .uninit)

/-! ### The kernels -/

/-- Burg's recursion: the output has `order + 1` elements, element 0 is exactly 1.0, every element above the completed stages is
exactly `+0.0`, and the stages are at most the order and `n - 1` (40_lpc.md R171). -/
def Obligations.BurgOutputShape : Prop :=
  ∀ (x : List F64) (p : Nat), 1 ≤ x.length → 1 ≤ p →
    (burg x p).1.length = p + 1 ∧ (burg x p).1[0]? = some 0x3FF0000000000000#64 ∧
    (∀ i, (burg x p).2 < i → i ≤ p → (burg x p).1[i]? = some 0x0000000000000000#64) ∧
    (burg x p).2 ≤ min p (x.length - 1)

/-- Burg's recursion, rule by rule. It starts from two copies of the signal and `[1, 0, ..., 0]` (40_lpc.md R162); stages run in
ascending order and stop before the first whose `den` is at most EPS_DEN (R163, R166). A stage has `num`, `den` and `k` as R164, R165
and R167 give them; every right-hand side uses the values from before it: `a[m]` becomes `k`, `a[i]` for `i` in `1..m-1` becomes
`a_old[i] + k a_old[m-i]`, no other coefficient changes (R168); over windows of length `L`, `ef[m+j]` becomes `ef[m+j] + k eb[m-1+j]`
and `eb[m-1+j]` becomes `eb[m-1+j] + k ef[m+j]`, and elements outside the windows do not change (R169). -/
def Obligations.BurgFollowsTheRecursion : Prop :=
  (∀ (x : List F64) (p : Nat),
    let b := burgLoop x.length p 1
      { ef := x, eb := x, a := 0x3FF0000000000000#64 :: List.replicate p 0x0000000000000000#64, stages := 0 }
    burg x p = (b.a, b.stages)) ∧
  (∀ (n count m : Nat) (b : Burg),
    let L := n - m
    let dot := fun (u v : Nat → F64) => ((List.range L).map fun j => fmul (u j) (v j)).foldl fadd 0x0000000000000000#64
    let f := fun j => b.ef.getD (m + j) 0#64
    let g := fun j => b.eb.getD (m - 1 + j) 0#64
    let num := dot f g
    let den := fadd (dot f f) (dot g g)
    let k := fdiv (fmul 0xC000000000000000#64 num) den
    burgLoop n 0 m b = b ∧
    burgLoop n (count + 1) m b =
      if fle den 0x3D719799812DEA11#64 then b
      else burgLoop n count (m + 1)
        { ef := burgForward b m L k, eb := burgBackward b m L k, a := burgCoefs b.a m k, stages := m }) ∧
  (∀ (a : List F64) (m i : Nat) (k : F64), 1 ≤ m → i < a.length →
    (burgCoefs a m k).length = a.length ∧
    (burgCoefs a m k)[i]? =
      if i = m then some k
      else if 1 ≤ i ∧ i ≤ m - 1 then some (fadd (a.getD i 0#64) (fmul k (a.getD (m - i) 0#64)))
      else a[i]?) ∧
  (∀ (b : Burg) (m L : Nat) (k : F64), 1 ≤ m → m + L ≤ b.ef.length → b.eb.length = b.ef.length →
    (∀ j, j < L →
      (burgForward b m L k)[m + j]? =
        some (fadd (b.ef.getD (m + j) 0#64) (fmul k (b.eb.getD (m - 1 + j) 0#64))) ∧
      (burgBackward b m L k)[m - 1 + j]? =
        some (fadd (b.eb.getD (m - 1 + j) 0#64) (fmul k (b.ef.getD (m + j) 0#64)))) ∧
    (∀ i, i < m ∨ m + L ≤ i → (burgForward b m L k)[i]? = b.ef[i]?) ∧
    (∀ i, i < m - 1 ∨ m - 1 + L ≤ i → (burgBackward b m L k)[i]? = b.eb[i]?))

/-- A frame of zeros of either sign, for every order: the coefficients are `1.0` and then exact `+0.0`, and no stage completes
(40_lpc.md R172, R166). -/
def Obligations.SilentInputGivesTrivialPredictor : Prop :=
  ∀ (x : List F64) (p : Nat), x ≠ [] → 1 ≤ p → (∀ v ∈ x, v = 0x0000000000000000#64 ∨ v = 0x8000000000000000#64) →
    burg x p = (0x3FF0000000000000#64 :: List.replicate p 0x0000000000000000#64, 0)

/-- Each element of a product is the left-to-right sum, from `+0.0` and in ascending `i`, of the rounded products `p[i] q[k-i]` over
every `i` for which both exist (41_resonance.md R186). -/
def Obligations.ConvolutionElements : Prop :=
  ∀ (p q : List F64), p ≠ [] → q ≠ [] →
    (conv p q).length = p.length + q.length - 1 ∧
    ∀ k, k < p.length + q.length - 1 →
      (conv p q)[k]? = some
        ((((List.range p.length).filter fun i => decide (i ≤ k) && decide (k - i < q.length)).map fun i =>
          fmul (p.getD i 0#64) (q.getD (k - i) 0#64)).foldl fadd 0x0000000000000000#64)

/-- Multiplying by the polynomial `[1.0]` gives every coefficient back bit for bit, but for a negative zero, which becomes `+0.0`, and
a NaN, which becomes canonical (41_resonance.md R187; 00_scope.md R14, R16, R19). -/
def Obligations.ConvolutionByOne : Prop :=
  ∀ q : List F64, q ≠ [] →
    conv [0x3FF0000000000000#64] q =
      q.map fun x =>
        if isNaN x then 0x7FF8000000000000#64 else if x = 0x8000000000000000#64 then 0x0000000000000000#64 else x

/-- The lag bounds of a frame that passes YIN's checks: neither quotient is a NaN or has its sign bit set, so that both floors are
defined; the floor of a finite one is the integer `k` with `k ≤ q < k + 1` and of `+∞` the symbol `∞`; `tauMin` is `max(1, floor(sr/fmax))`, or `∞`,
and `tauMax` is `min(floor(sr/fmin), n - 1)` (42_yin.md R201; 00_scope.md R22). -/
def Obligations.YinBoundsAreDefined : Prop :=
  ∀ (sr fmin fmax : F64) (n : Nat), isFinite sr = true → fgt sr 0#64 = true → fgt fmin 0#64 = true → flt fmin fmax = true →
    let qmax := fdiv sr fmax
    let qmin := fdiv sr fmin
    isNaN qmax = false ∧ fsign qmax = false ∧ isNaN qmin = false ∧ fsign qmin = false ∧
    (∀ k, k * unitsPerOne ≤ fmag qmax → fmag qmax < (k + 1) * unitsPerOne → isInf qmax = false →
      (yinBounds sr fmin fmax n).1 = some (max 1 k)) ∧
    (isInf qmax = true → (yinBounds sr fmin fmax n).1 = none) ∧
    (∀ k, k * unitsPerOne ≤ fmag qmin → fmag qmin < (k + 1) * unitsPerOne → isInf qmin = false →
      (yinBounds sr fmin fmax n).2 = min k (n - 1)) ∧
    (isInf qmin = true → (yinBounds sr fmin fmax n).2 = n - 1)

/-- The arrays of YIN: `d[tau]` for `tau` in `1..tauMax` is the left-to-right sum of the squares of the rounded differences
(42_yin.md R202); `cmnd[0] = 1.0`, and with `S` the running sum of `d[1..tau]` from `+0.0`, `cmnd[tau] = d[tau] tau / S` if `S > 0`,
else `1.0` (R203). -/
def Obligations.YinDifferenceAndCmnd : Prop :=
  (∀ (fr : List F64) (tauMax : Nat),
    (yinDiffs fr tauMax).length = tauMax ∧
    ∀ tau, 1 ≤ tau → tau ≤ tauMax →
      (yinDiffs fr tauMax)[tau - 1]? = some
        (((List.range (fr.length - tau)).map fun i =>
          let e := fsub (fr.getD i 0#64) (fr.getD (i + tau) 0#64)
          fmul e e).foldl fadd 0x0000000000000000#64)) ∧
  (∀ ds : List F64,
    (yinCmnd ds).length = ds.length + 1 ∧ (yinCmnd ds)[0]? = some 0x3FF0000000000000#64 ∧
    ∀ tau, 1 ≤ tau → tau ≤ ds.length →
      let S := (ds.take tau).foldl fadd 0x0000000000000000#64
      (yinCmnd ds)[tau]? = some
        (if fgt S 0#64 then fdiv (fmul (ds.getD (tau - 1) 0#64) (toF tau)) S else 0x3FF0000000000000#64))

/-- The search: a lag found lies in `tauMin..tauMax`; it is reached by descending, one lag at a time, from the FIRST lag of the range
strictly below the threshold, and it stops at `tauMax` or where the next CMND is not below its own (42_yin.md R204, R205). None is
found exactly when no lag of the range is strictly below the threshold, in particular when `tauMin` is `∞` or exceeds `tauMax`
(R206). -/
def Obligations.YinSearchDescendsFromFirstDip : Prop :=
  ∀ (cmnd : List F64) (tauMin : Option Nat) (tauMax : Nat) (thr : F64),
    (∀ lo tau, tauMin = some lo → yinSearch cmnd tauMin tauMax thr = some tau →
      ∃ t, lo ≤ t ∧ t ≤ tau ∧ tau ≤ tauMax ∧ flt (cmnd.getD t 0#64) thr = true ∧
        (∀ u, lo ≤ u → u < t → flt (cmnd.getD u 0#64) thr = false) ∧
        (∀ u, t ≤ u → u < tau → flt (cmnd.getD (u + 1) 0#64) (cmnd.getD u 0#64) = true) ∧
        (tau + 1 ≤ tauMax → flt (cmnd.getD (tau + 1) 0#64) (cmnd.getD tau 0#64) = false)) ∧
    (yinSearch cmnd tauMin tauMax thr = none ↔
      ∀ lo, tauMin = some lo → ∀ t, lo ≤ t → t ≤ tauMax → flt (cmnd.getD t 0#64) thr = false)

/-- An estimate's lag is the one the search finds, in `1..tauMax`, and its pitch is `sr / tf`: for `1 < tau < tauMax`, with `s0`, `s1`,
`s2` the CMND at `tau - 1`, `tau`, `tau + 1` and `denom = 2 ((2 s1 - s2) - s0)`, `tf` is `tau + (s2 - s0) / denom` where `denom ≠ 0`, a
NaN counting as `≠ 0`; and in every other case it is `tau` (42_yin.md R207, R208). -/
def Obligations.YinPitchIsInterpolated : Prop :=
  ∀ (fr : List F64) (sr fmin fmax thr : F64) (tau : Nat) (pitch : F64),
    yinEstimate fr sr fmin fmax thr = some (tau, pitch) →
    let tauMax := (yinBounds sr fmin fmax fr.length).2
    let cmnd := yinCmnd (yinDiffs fr tauMax)
    let s0 := cmnd.getD (tau - 1) 0#64
    let s1 := cmnd.getD tau 0#64
    let s2 := cmnd.getD (tau + 1) 0#64
    let denom := fmul 0x4000000000000000#64 (fsub (fsub (fmul 0x4000000000000000#64 s1) s2) s0)
    yinSearch cmnd (yinBounds sr fmin fmax fr.length).1 tauMax thr = some tau ∧ 1 ≤ tau ∧ tau ≤ tauMax ∧
      (1 < tau ∧ tau < tauMax ∧ fne denom 0#64 = true → pitch = fdiv sr (fadd (toF tau) (fdiv (fsub s2 s0) denom))) ∧
      (¬ (1 < tau ∧ tau < tauMax ∧ fne denom 0#64 = true) → pitch = fdiv sr (toF tau))

/-- A constant frame of any finite value is unvoiced for every threshold not above 1.0; for one above 1.0 it is voiced at `tauMin`,
where `tauMin ≤ tauMax`, with pitch `sr / tauMin` (42_yin.md R209). -/
def Obligations.ConstantFrameEstimate : Prop :=
  ∀ (c sr fmin fmax thr : F64) (n : Nat), isFinite c = true →
    (fle thr 0x3FF0000000000000#64 = true → yinEstimate (List.replicate n c) sr fmin fmax thr = none) ∧
    (∀ lo, fgt thr 0x3FF0000000000000#64 = true → (yinBounds sr fmin fmax n).1 = some lo → lo ≤ (yinBounds sr fmin fmax n).2 →
      yinEstimate (List.replicate n c) sr fmin fmax thr = some (lo, fdiv sr (toF lo)))

/-- The generator: sample `k` of `gauss(s, n)` comes from the uniforms of the states after `2k+1` and `2k+2` updates of the seed, the
final state is the seed updated `2n` times, and an update is `s 1664525 + 1013904223` modulo 2^32 (43_prng.md R221, R223, R224). -/
def Obligations.GaussSamplesFollowTheLcg : Prop :=
  ∀ (s : U32) (n : Nat),
    let next := fun (x : U32) => BitVec.ofNat 32 ((x.toNat * 1664525 + 1013904223) % 2 ^ 32)
    let u := fun (j : Nat) => fdiv (toF ((next^[j] s).toNat + 1)) 0x41F0000000000000#64
    (gauss s n).1.length = n ∧ (gauss s n).2 = next^[2 * n] s ∧
    ∀ k, k < n → (gauss s n).1[k]? = some
      (fmul (fsqrt (fmul 0xC000000000000000#64 (flog (u (2 * k + 1)))))
        (fsin (fmul 0x401921FB54442D18#64 (u (2 * k + 2)))))

/-- Continuation: `gauss(s, n1 + n2)` is the samples of `gauss(s, n1)` followed by those of `gauss` from its final state, and both
reach the same final state (43_prng.md R228). -/
def Obligations.GaussContinues : Prop :=
  ∀ (s : U32) (n1 n2 : Nat),
    gauss s (n1 + n2) = ((gauss s n1).1 ++ (gauss (gauss s n1).2 n2).1, (gauss (gauss s n1).2 n2).2)

/-- NOISE with `n1` samples and then NOISEC with `n2`, placed contiguously, leave in DMEM and PRNG_STATE what NOISE with `n1 + n2`
leaves; the state of the second command is any one with the first's DMEM and its PRNG_STATE latched (43_prng.md R224, R228). -/
def Obligations.NoisecContinuesNoise : Prop :=
  ∀ (s u : State) (src src' dst n1 n2 : Nat), n1 ≠ 0 → n2 ≠ 0 → dst + (n1 + n2) ≤ s.dmemWords →
    (∀ t, exec (.noise src dst n1) s = .next t →
      u.dmem = t.dmem ∧ u.lat.prng = t.prng ∧ u.dmemWords = t.dmemWords) →
    ∃ v w, exec (.noisec src' (dst + n1) n2) u = .next v ∧ exec (.noise src dst (n1 + n2)) s = .next w ∧
      v.prng = w.prng ∧ (∀ a, v.dmem.read a = w.dmem.read a) ∧
      ∀ j, j < n1 + n2 → v.dmem.readWord (dst + j) = (gauss (s.lat.arg.arg0.extractLsb' 0 32) (n1 + n2)).1[j]?

/-- The uniform of a state is exactly `(s + 1) / 2^32`: its magnitude times 2^32 is `s + 1`, it is finite and positive, and it is 1.0
exactly for the state 0xFFFFFFFF (43_prng.md R222; 00_scope.md R21). -/
def Obligations.UniformIsExact : Prop :=
  ∀ s : U32, isFinite (uniform s) = true ∧ fsign (uniform s) = false ∧
    fmag (uniform s) * 2 ^ 32 = (s.toNat + 1) * unitsPerOne ∧
    (uniform s = 0x3FF0000000000000#64 ↔ s = 0xFFFFFFFF#32)

/-! ### Arithmetic -/

/-- Addition, subtraction, multiplication and division, over every pair of operands that are no NaN. Of finite values (but for a zero
divisor) each rounds its exact result once, to nearest with ties to even, with an infinity exactly from the overflow threshold on and
nothing flushed to zero. A sum or difference has the sign of its exact result; an exact zero sum is `-0.0` only of two negative zeros,
and an exact zero difference only of `-0.0` less `+0.0`; a product or quotient has the exclusive or of the signs. A finite value over
a zero is an infinity, and `0 / 0`, `0 ∞`, `∞ / ∞`, a sum of opposite and a difference of like infinities are the canonical NaN; every
other operation on an infinity gives an infinity, and a finite value over one a zero (00_scope.md R14, R16, with the IEEE 754 facts of
log entry 10). Magnitudes are in units of 2^-1074. -/
def Obligations.AddMulDivRoundOnce : Prop :=
  ∀ a b : F64,
    let nan := 0x7FF8000000000000#64
    let inf := fun (neg : Bool) => if neg then 0xFFF0000000000000#64 else 0x7FF0000000000000#64
    let zero := fun (neg : Bool) => if neg then 0x8000000000000000#64 else 0x0000000000000000#64
    let opposite := fsign a != fsign b
    let roundsOnce := fun (n d : Nat) (r : F64) =>
      (isFinite r = true ↔ ¬ Overflows n d) ∧ isNaN r = false ∧ (isFinite r = true → NearestEven n d r)
    (isFinite a = true → isFinite b = true →
      (let v := fint a + fint b
       roundsOnce v.natAbs 1 (fadd a b) ∧ fsign (fadd a b) = if v = 0 then fsign a && fsign b else decide (v < 0)) ∧
      (let v := fint a - fint b
       roundsOnce v.natAbs 1 (fsub a b) ∧ fsign (fsub a b) = if v = 0 then fsign a && !fsign b else decide (v < 0)) ∧
      (roundsOnce (fmag a * fmag b) unitsPerOne (fmul a b) ∧ fsign (fmul a b) = opposite) ∧
      (fmag b ≠ 0 → roundsOnce (fmag a * unitsPerOne) (fmag b) (fdiv a b) ∧ fsign (fdiv a b) = opposite) ∧
      (fmag b = 0 → fdiv a b = if fmag a = 0 then nan else inf opposite)) ∧
    (isInf a = true → isFinite b = true →
      fadd a b = a ∧ fsub a b = a ∧ fmul a b = (if fmag b = 0 then nan else inf opposite) ∧ fdiv a b = inf opposite) ∧
    (isFinite a = true → isInf b = true →
      fadd a b = b ∧ fsub a b = b ^^^ 0x8000000000000000#64 ∧ fmul a b = (if fmag a = 0 then nan else inf opposite) ∧
        fdiv a b = zero opposite) ∧
    (isInf a = true → isInf b = true →
      fadd a b = (if fsign a = fsign b then a else nan) ∧ fsub a b = (if fsign a = fsign b then nan else a) ∧
        fmul a b = inf opposite ∧ fdiv a b = nan)

/-- The square root of a finite positive value is finite, positive, and nearest to the exact root `√(m unitsPerOne)` units among all
finite magnitudes: the root's square is at most that of the midpoint with any greater value and at least that with any smaller one.
The root of a zero is that zero, of any other negative value, `-∞` among them, the canonical NaN, and of `+∞` itself (00_scope.md R14,
R16, with the IEEE 754 facts of log entry 10). -/
def Obligations.SqrtRoundsToNearest : Prop :=
  ∀ a : F64,
    (isFinite a = true → fsign a = false → fmag a ≠ 0 →
      let r := fmag (fsqrt a)
      let sq := fmag a * unitsPerOne
      isFinite (fsqrt a) = true ∧ fsign (fsqrt a) = false ∧
      ∀ c : F64, isFinite c = true →
        (r < fmag c → 4 * sq ≤ (r + fmag c) * (r + fmag c)) ∧ (fmag c < r → (r + fmag c) * (r + fmag c) ≤ 4 * sq)) ∧
    (fmag a = 0 → fsqrt a = a) ∧
    (isNaN a = false → fsign a = true → fmag a ≠ 0 → fsqrt a = 0x7FF8000000000000#64) ∧
    fsqrt 0x7FF0000000000000#64 = 0x7FF0000000000000#64

/-- Every NaN result of a primitive or an elementary function is the canonical NaN, and a primitive with a NaN operand, whatever its
sign and payload, has that result (00_scope.md R14, R16, with the IEEE 754 facts of log entry 10). -/
def Obligations.NaNResultsAreCanonical : Prop :=
  ∀ a b : F64,
    (∀ r ∈ [fadd a b, fsub a b, fmul a b, fdiv a b, fsqrt a, fexp a, flog a, fsin a, fcos a],
      isNaN r = true → r = 0x7FF8000000000000#64) ∧
    (isNaN a = true ∨ isNaN b = true → ∀ r ∈ [fadd a b, fsub a b, fmul a b, fdiv a b], r = 0x7FF8000000000000#64) ∧
    (isNaN a = true → fsqrt a = 0x7FF8000000000000#64)

/-- Comparisons. With a NaN operand `<`, `≤` and `>` are false and `≠` is true. Without one each compares the values, `fint` being the
value in units of 2^-1074 with an infinity beyond every finite one: that order is the order of sign and magnitude as the words hold
them, so that `+∞` is above and `-∞` below everything else, exactly one of `a < b`, `b < a` and "not `a ≠ b`" holds, and the two zeros
are equal. `isfinite` is true of all but the infinities and the NaNs (00_scope.md R15, with the IEEE 754 facts of log entry 10). -/
def Obligations.ComparisonsAreIeee : Prop :=
  ∀ a b : F64,
    let posInf := 0x7FF0000000000000#64
    let negInf := 0xFFF0000000000000#64
    let signMagnitude := fun (x : F64) =>
      if x.getLsbD 63 then -((x.extractLsb' 0 63).toNat : Int) else ((x.extractLsb' 0 63).toNat : Int)
    (isNaN a = true ∨ isNaN b = true → flt a b = false ∧ fle a b = false ∧ fgt a b = false ∧ fne a b = true) ∧
    (isNaN a = false → isNaN b = false →
      (flt a b = true ↔ fint a < fint b) ∧ (fle a b = true ↔ fint a ≤ fint b) ∧ (fgt a b = true ↔ fint b < fint a) ∧
      (fne a b = true ↔ fint a ≠ fint b) ∧ (flt a b = true ↔ signMagnitude a < signMagnitude b) ∧
      (flt a posInf = true ↔ a ≠ posInf) ∧ (flt negInf a = true ↔ a ≠ negInf) ∧
      fgt a b = flt b a ∧ fle a b = !fgt a b ∧ fne a b = (flt a b || flt b a) ∧ ¬ (flt a b = true ∧ flt b a = true)) ∧
    fne 0x0000000000000000#64 0x8000000000000000#64 = false ∧
    (isFinite a = true ↔ isNaN a = false ∧ a ≠ posInf ∧ a ≠ negInf)

/-! ### Spellings -/

/-- The assembler's example, an omitted operand as 0, `.word`, and the expansion of `lpc` as its two transactions (30_encoding.md
R144, R146). -/
def Obligations.AssemblerExamples : Prop :=
  assemble "LPC d=0x100, s=0, n=256".toList = some 0x0100010000000001#64 ∧
  assemble ".word 0x0000000000000107".toList = some 0x0000000000000107#64 ∧
  assemble "RESON d=3".toList = some 0x0000000300000002#64 ∧
  pseudoEvents 0 (.lpc 16 0 4 2#64) =
    [.hwrite 8 0x00028#20 2#64, .hwrite 8 0x00020#20 0x0004001000000001#64]
end

