-- ==== Sys2Proof/Laws/Decode.lean ====
section
/-! SUPPORT. The fields of a word, the encoder as a sum, and everything `decode` can answer. -/

namespace Sys2Proof

theorem Word.field_lt (w : Word) (lo n : Nat) : w.field lo n < 2 ^ n := Nat.mod_lt _ (Nat.two_pow_pos n)

theorem toNat_extractLsb'_eq_field (w : Word) (lo n : Nat) : (w.extractLsb' lo n).toNat = w.field lo n := by
  simp [BitVec.extractLsb', Word.field, Nat.shiftRight_eq_div_pow]

/-- The encoder's shifts and ors are a sum, its fields not overlapping (30_encoding.md R143). -/
theorem toNat_enc {op src dst len : Nat} (h1 : op < 256) (h2 : src < 65536) (h3 : dst < 65536) (h4 : len < 65536) :
    (enc op src dst len).toNat = len * 2 ^ 48 + dst * 2 ^ 32 + src * 2 ^ 16 + op := by
  unfold enc
  have e1 : (src <<< 16 ||| op) = src * 2 ^ 16 + op := by
    rw [Nat.shiftLeft_eq, Nat.mul_comm, Nat.two_pow_add_eq_or_of_lt (by omega)]
  have e2 : (dst <<< 32 ||| (src * 2 ^ 16 + op)) = dst * 2 ^ 32 + (src * 2 ^ 16 + op) := by
    rw [Nat.shiftLeft_eq, Nat.mul_comm, Nat.two_pow_add_eq_or_of_lt (by omega)]
  have e3 : (len <<< 48 ||| (dst * 2 ^ 32 + (src * 2 ^ 16 + op))) = len * 2 ^ 48 + (dst * 2 ^ 32 + (src * 2 ^ 16 + op)) := by
    rw [Nat.shiftLeft_eq, Nat.mul_comm, Nat.two_pow_add_eq_or_of_lt (by omega)]
  rw [Nat.or_assoc, Nat.or_assoc, e1, e2, e3, BitVec.toNat_ofNat, Nat.mod_eq_of_lt (by omega)]
  omega

theorem Instr.op_bounds (i : Instr) : 1 ≤ i.op ∧ i.op ≤ 6 := by cases i <;> simp [Instr.op]

theorem commandOf_eq_some {op src dst len : Nat} {i : Instr} (h : commandOf op src dst len = some i) :
    i.op = op ∧ i.src = src ∧ i.dst = dst ∧ i.len = len := by
  unfold commandOf at h
  split at h <;> simp only [Option.some.injEq, reduceCtorEq] at h <;> subst h <;> exact ⟨rfl, rfl, rfl, rfl⟩

theorem commandOf_fields (i : Instr) : commandOf i.op i.src i.dst i.len = some i := by cases i <;> rfl

theorem commandOf_eq_none_iff {op src dst len : Nat} : commandOf op src dst len = none ↔ op ∉ [1, 2, 3, 4, 5, 6] := by
  unfold commandOf
  split <;> simp_all

theorem decode_of_illegal {w : Word} (h : opField w ∉ [1, 2, 3, 4, 5, 6]) : decode w = .illegal := by
  unfold decode
  rw [commandOf_eq_none_iff.2 h]

theorem decode_of_reserved {w : Word} (h : opField w ∈ [1, 2, 3, 4, 5, 6]) (h' : rsvField w ≠ 0) : decode w = .reserved := by
  unfold decode
  cases hc : commandOf (opField w) (srcField w) (dstField w) (lenField w) with
  | none => exact absurd h (commandOf_eq_none_iff.1 hc)
  | some i => simp [h']

/-- `decode` answers the command `i` exactly on the words whose RSV is 0 and whose fields are those of `i`. -/
theorem decode_eq_cmd_iff {w : Word} {i : Instr} :
    decode w = .cmd i ↔ rsvField w = 0 ∧ i.op = opField w ∧ i.src = srcField w ∧ i.dst = dstField w ∧ i.len = lenField w := by
  constructor
  · intro h
    unfold decode at h
    split at h
    · simp at h
    · split at h
      · simp at h
      · simp only [Decoded.cmd.injEq] at h
        subst h
        exact ⟨by omega, commandOf_eq_some ‹_›⟩
  · rintro ⟨h0, h1, h2, h3, h4⟩
    unfold decode
    rw [← h1, ← h2, ← h3, ← h4, commandOf_fields]
    simp [h0]

/-- The five fields of an encoded command (30_encoding.md R143). -/
theorem fields_encode {i : Instr} (h : i.WellFormed) :
    opField (encode i) = i.op ∧ rsvField (encode i) = 0 ∧ srcField (encode i) = i.src ∧ dstField (encode i) = i.dst ∧
      lenField (encode i) = i.len := by
  obtain ⟨h1, h2, h3⟩ := h
  have hop := i.op_bounds
  have e := toNat_enc (op := i.op) (by omega) h1 h2 h3
  refine ⟨?_, ?_, ?_, ?_, ?_⟩ <;>
    simp only [opField, rsvField, srcField, dstField, lenField, Word.field, encode] <;> omega

end Sys2Proof
end

