-- ==== Sys2Proof/Laws/Float.lean ====
section
/-! SUPPORT. Binary64: the fields of a packed word, what a 63-bit pattern is worth, that rounding is to nearest, ties to even, and what
the primitives answer on finite values and on infinities. -/

namespace Sys2Proof.Machine

open Sys2Proof

/-! ### Fields -/

/-- Bits 62:0 of a word. -/
def fbits (x : F64) : Nat := x.toNat % 2 ^ 63

theorem fbits_lt (x : F64) : fbits x < 2 ^ 63 := Nat.mod_lt _ (by norm_num)

theorem fexpo_eq (x : F64) : fexpo x = fbits x / 2 ^ 52 := by
  have := x.isLt; simp only [fexpo, Word.field, fbits]; omega

theorem ffrac_eq (x : F64) : ffrac x = fbits x % 2 ^ 52 := by
  simp only [ffrac, Word.field, fbits]; omega

theorem fsign_iff (x : F64) : fsign x = true ↔ 2 ^ 63 ≤ x.toNat := by
  have := x.isLt
  simp only [fsign, Word.field, beq_iff_eq]; omega

theorem toNat_eq (x : F64) : x.toNat = (if fsign x then 2 ^ 63 else 0) + fbits x := by
  have := x.isLt
  by_cases h : fsign x = true
  · have := (fsign_iff x).1 h; rw [if_pos h, fbits]; omega
  · have := mt (fsign_iff x).2 h; rw [if_neg h, fbits]; omega

theorem toNat_fpack (neg : Bool) {m : Nat} (h : m < 2 ^ 63) : (fpack neg m).toNat = (if neg then 2 ^ 63 else 0) + m := by
  rw [fpack, BitVec.toNat_ofNat, Nat.mod_eq_of_lt]; split <;> omega

@[simp] theorem fbits_fpack (neg : Bool) {m : Nat} (h : m < 2 ^ 63) : fbits (fpack neg m) = m := by
  rw [fbits, toNat_fpack neg h]; split <;> omega

@[simp] theorem fsign_fpack (neg : Bool) {m : Nat} (h : m < 2 ^ 63) : fsign (fpack neg m) = neg := by
  have := fsign_iff (fpack neg m)
  rw [toNat_fpack neg h] at this
  cases neg
  · cases hs : fsign (fpack false m)
    · rfl
    · have h2 := this.1 hs
      rw [if_neg (by decide)] at h2; omega
  · rw [this]; simp

/-- A word is its sign and its other bits. -/
theorem fpack_fsign_fbits (x : F64) : fpack (fsign x) (fbits x) = x := by
  apply BitVec.eq_of_toNat_eq
  rw [toNat_fpack _ (fbits_lt x), ← toNat_eq x]

theorem isFinite_iff (x : F64) : isFinite x = true ↔ fbits x < infBits := by
  have := fbits_lt x
  simp only [isFinite, fexpo_eq, bne_iff_ne, infBits]; omega

theorem isNaN_iff (x : F64) : isNaN x = true ↔ infBits < fbits x := by
  have := fbits_lt x
  simp only [isNaN, fexpo_eq, ffrac_eq, Bool.and_eq_true, beq_iff_eq, bne_iff_ne, infBits]; omega

theorem isInf_iff (x : F64) : isInf x = true ↔ fbits x = infBits := by
  have := fbits_lt x
  simp only [isInf, fexpo_eq, ffrac_eq, Bool.and_eq_true, beq_iff_eq, infBits]; omega

/-- The infinities are two words. -/
theorem isInf_iff_eq_finf (x : F64) : isInf x = true ↔ x = finf (fsign x) := by
  rw [isInf_iff]
  constructor
  · intro h; rw [finf, ← h, fpack_fsign_fbits]
  · intro h; rw [h, finf, fbits_fpack _ (by decide)]

theorem isNaN_of_isInf {x : F64} (h : isInf x = true) : isNaN x = false := by
  have h1 := (isInf_iff x).1 h
  cases e : isNaN x
  · rfl
  · have := (isNaN_iff x).1 e; omega

/-! ### The sign bit and its change -/

theorem fsign_eq_getLsbD (x : F64) : fsign x = x.getLsbD 63 := by
  have h : x.getLsbD 63 = decide (2 ^ 63 ≤ x.toNat) := BitVec.msb_eq_decide x
  rw [h, Bool.eq_iff_iff, fsign_iff, decide_eq_true_eq]

@[simp] theorem fbits_fneg (x : F64) : fbits (fneg x) = fbits x := by
  unfold fbits fneg
  rw [BitVec.toNat_xor, Nat.xor_mod_two_pow]
  exact Nat.xor_zero _

@[simp] theorem fsign_fneg (x : F64) : fsign (fneg x) = !fsign x := by
  rw [fsign_eq_getLsbD, fsign_eq_getLsbD, fneg, BitVec.getLsbD_xor, show (0x8000000000000000#64).getLsbD 63 = true by decide,
    Bool.xor_true]

@[simp] theorem isNaN_fneg (x : F64) : isNaN (fneg x) = isNaN x := by rw [Bool.eq_iff_iff, isNaN_iff, isNaN_iff, fbits_fneg]

@[simp] theorem isInf_fneg (x : F64) : isInf (fneg x) = isInf x := by rw [Bool.eq_iff_iff, isInf_iff, isInf_iff, fbits_fneg]

@[simp] theorem isFinite_fneg (x : F64) : isFinite (fneg x) = isFinite x := by
  rw [Bool.eq_iff_iff, isFinite_iff, isFinite_iff, fbits_fneg]

theorem isNaN_of_isFinite {x : F64} (h : isFinite x = true) : isNaN x = false := by
  have h1 := (isFinite_iff x).1 h
  cases e : isNaN x
  · rfl
  · have := (isNaN_iff x).1 e; omega

theorem isInf_of_isFinite {x : F64} (h : isFinite x = true) : isInf x = false := by
  have h1 := (isFinite_iff x).1 h
  cases e : isInf x
  · rfl
  · have := (isInf_iff x).1 e; omega

/-! ### What 63 bits are worth -/

theorem unitsPerOne_eq : unitsPerOne = 2 ^ 1074 := by unfold unitsPerOne; rfl

theorem unitsPerOne_pos : 0 < unitsPerOne := by rw [unitsPerOne_eq]; exact Nat.pow_pos (by norm_num)

/-- The magnitude, in units of 2^-1074, of the pattern `b` of bits 62:0. -/
def magOf (b : Nat) : Nat := if b / 2 ^ 52 = 0 then b % 2 ^ 52 else (2 ^ 52 + b % 2 ^ 52) * 2 ^ (b / 2 ^ 52 - 1)

theorem fmag_eq (x : F64) : fmag x = magOf (fbits x) := by simp only [fmag, magOf, fexpo_eq, ffrac_eq]

@[simp] theorem fmag_fneg (x : F64) : fmag (fneg x) = fmag x := by rw [fmag_eq, fmag_eq, fbits_fneg]

@[simp] theorem fint_fneg (x : F64) : fint (fneg x) = -fint x := by
  simp only [fint, fsign_fneg, fmag_fneg]
  cases fsign x <;> simp

/-- A significand `q` scaled by `2^sh` is the pattern `sh * 2^52 + q`, also where `q` is a full `2^53`. -/
theorem magOf_scaled {sh q : Nat} (hq : q ≤ 2 ^ 53) (hs : sh = 0 ∨ 2 ^ 52 ≤ q) : magOf (sh * 2 ^ 52 + q) = q * 2 ^ sh := by
  unfold magOf
  by_cases h1 : q < 2 ^ 52
  · have h0 : sh = 0 := by omega
    subst h0
    rw [if_pos (by omega)]; simp only [pow_zero]; omega
  · by_cases h2 : q < 2 ^ 53
    · have hd : (sh * 2 ^ 52 + q) / 2 ^ 52 = sh + 1 := by omega
      have hm : (sh * 2 ^ 52 + q) % 2 ^ 52 = q - 2 ^ 52 := by omega
      rw [hd, hm, if_neg (by omega), show 2 ^ 52 + (q - 2 ^ 52) = q by omega, Nat.add_sub_cancel]
    · have e : q = 2 ^ 53 := by omega
      subst e
      have hd : (sh * 2 ^ 52 + 2 ^ 53) / 2 ^ 52 = sh + 2 := by omega
      have hm : (sh * 2 ^ 52 + 2 ^ 53) % 2 ^ 52 = 0 := by omega
      rw [hd, hm, if_neg (by omega), show sh + 2 - 1 = sh + 1 by omega, pow_succ]; ring

/-- Every pattern is such a scaled significand. -/
theorem exists_scaled (b : Nat) : ∃ sh q, b = sh * 2 ^ 52 + q ∧ q < 2 ^ 53 ∧ (sh = 0 ∨ 2 ^ 52 ≤ q) := by
  by_cases h : b < 2 ^ 53
  · exact ⟨0, b, by omega, h, .inl rfl⟩
  · exact ⟨b / 2 ^ 52 - 1, b - (b / 2 ^ 52 - 1) * 2 ^ 52, by omega, by omega, by omega⟩

/-- The next pattern is worth one quantum more. -/
theorem magOf_succ {sh q : Nat} (hq : q < 2 ^ 53) (hs : sh = 0 ∨ 2 ^ 52 ≤ q) :
    magOf (sh * 2 ^ 52 + q + 1) = (q + 1) * 2 ^ sh := by
  rw [Nat.add_assoc]; exact magOf_scaled (by omega) (by omega)

theorem magOf_strictMono : StrictMono magOf := by
  refine strictMono_nat_of_lt_succ fun b => ?_
  obtain ⟨sh, q, rfl, hq, hs⟩ := exists_scaled b
  rw [magOf_succ hq hs, magOf_scaled (by omega) hs]
  exact Nat.mul_lt_mul_of_pos_right (Nat.lt_succ_self q) (Nat.two_pow_pos sh)

theorem magOf_inj {b c : Nat} : magOf b = magOf c ↔ b = c := magOf_strictMono.injective.eq_iff

theorem magOf_lt {b c : Nat} : magOf b < magOf c ↔ b < c := magOf_strictMono.lt_iff_lt

theorem magOf_le {b c : Nat} : magOf b ≤ magOf c ↔ b ≤ c := magOf_strictMono.le_iff_le

@[simp] theorem magOf_zero : magOf 0 = 0 := rfl

theorem magOf_eq_zero {b : Nat} : magOf b = 0 ↔ b = 0 := by simpa using magOf_inj (b := b) (c := 0)

theorem magOf_infBits : magOf infBits = 2 ^ 52 * 2 ^ 2046 := by
  have h : infBits = 2046 * 2 ^ 52 + 2 ^ 52 := by decide
  rw [h, magOf_scaled (by norm_num) (.inr le_rfl)]

theorem fmag_eq_zero {x : F64} : fmag x = 0 ↔ fbits x = 0 := by rw [fmag_eq, magOf_eq_zero]

theorem fmag_ne_zero_of_isInf {x : F64} (h : isInf x = true) : fmag x ≠ 0 := by
  rw [Ne, fmag_eq_zero, (isInf_iff x).1 h]; decide

/-- The order of signed magnitudes is the order of sign and pattern. -/
theorem fint_lt_iff (x y : F64) :
    fint x < fint y ↔
      (if fsign x then -(fbits x : Int) else (fbits x : Int)) < if fsign y then -(fbits y : Int) else (fbits y : Int) := by
  have h1 := magOf_lt (b := fbits x) (c := fbits y)
  have h2 := magOf_lt (b := fbits y) (c := fbits x)
  have h3 := magOf_eq_zero (b := fbits x)
  have h4 := magOf_eq_zero (b := fbits y)
  simp only [fint, fmag_eq]
  cases fsign x <;> cases fsign y <;> simp only [Bool.false_eq_true, if_false, if_true] <;> omega

/-! ### Rounding -/

/-- `divNearestEven` is the nearest integer to the quotient, an even one where two are as near. -/
theorem divNearestEven_spec (n d : Nat) (hd : 0 < d) :
    ∃ q', divNearestEven n d = q' ∧ (q' = n / d ∨ q' = n / d + 1) ∧ 2 * n ≤ d * (2 * q' + 1) ∧ 2 * (d * q') ≤ 2 * n + d ∧
      (q' = n / d → d * q' ≤ n) ∧ (2 * n = d * (2 * q' + 1) → q' % 2 = 0) ∧ (2 * n + d = 2 * (d * q') → q' % 2 = 0) := by
  have e := Nat.div_add_mod n d
  have l := Nat.mod_lt n hd
  refine ⟨_, rfl, ?_⟩
  unfold divNearestEven
  generalize n / d = q at *
  generalize n % d = r at *
  have a1 : d * (q + 1) = d * q + d := by ring
  have a2 : d * (2 * q + 1) = 2 * (d * q) + d := by ring
  have a3 : d * (2 * (q + 1) + 1) = 2 * (d * q) + 3 * d := by ring
  simp only
  split
  · rw [a1, a3]; refine ⟨.inr rfl, ?_, ?_, ?_, ?_, ?_⟩ <;> omega
  · rw [a2]; refine ⟨.inl rfl, ?_, ?_, ?_, ?_, ?_⟩ <;> omega

/-- Bits 62:0 of the rounded value before they are capped at an infinity. -/
def rawBits (n d : Nat) : Nat := quantumShift n d * 2 ^ 52 + divNearestEven n (d * 2 ^ quantumShift n d)

theorem roundMag_eq (n d : Nat) : roundMag n d = min (rawBits n d) infBits := rfl

/-- The quotient by the quantum has at most 53 bits, and all 53 where the quantum is not the least. -/
theorem quantumShift_spec (n d : Nat) :
    n / (d * 2 ^ quantumShift n d) < 2 ^ 53 ∧ (quantumShift n d = 0 ∨ 2 ^ 52 ≤ n / (d * 2 ^ quantumShift n d)) := by
  rw [← Nat.div_div_eq_div_mul]
  unfold quantumShift
  generalize n / d = k
  have h1 : k < 2 ^ (k.log2 + 1) := Nat.lt_log2_self
  constructor
  · rw [Nat.div_lt_iff_lt_mul (Nat.two_pow_pos _), ← pow_add]
    exact lt_of_lt_of_le h1 (Nat.pow_le_pow_right (by norm_num) (by omega))
  · by_cases h : k.log2 ≤ 52
    · left; omega
    · right
      have hk : k ≠ 0 := by rintro rfl; simp at h
      have h2 : 2 ^ k.log2 ≤ k := Nat.log2_self_le hk
      rw [Nat.le_div_iff_mul_le (Nat.two_pow_pos _), ← pow_add]
      rwa [show 52 + (k.log2 - 52) = k.log2 by omega]

/-- Rounding is to nearest among all patterns, to an even one where another is as near. -/
theorem rawBits_nearest (n d b : Nat) (hd : 0 < d) :
    (rawBits n d < b → 2 * n ≤ d * (magOf (rawBits n d) + magOf b)) ∧
    (b < rawBits n d → d * (magOf (rawBits n d) + magOf b) ≤ 2 * n) ∧
    (b ≠ rawBits n d → 2 * n = d * (magOf (rawBits n d) + magOf b) → rawBits n d % 2 = 0) := by
  obtain ⟨hQ, hs⟩ := quantumShift_spec n d
  unfold rawBits
  generalize quantumShift n d = sh at *
  have hD : 0 < d * 2 ^ sh := Nat.mul_pos hd (Nat.two_pow_pos sh)
  obtain ⟨q', hq', hcase, hup, hlo, hdown, heven1, heven2⟩ := divNearestEven_spec n (d * 2 ^ sh) hD
  rw [hq']
  generalize n / (d * 2 ^ sh) = Q at *
  have hq53 : q' ≤ 2 ^ 53 := by omega
  have hsq : sh = 0 ∨ 2 ^ 52 ≤ q' := by omega
  rw [magOf_scaled hq53 hsq]
  have hpar : (sh * 2 ^ 52 + q') % 2 = q' % 2 := by omega
  rw [hpar]
  -- the neighbour above is at least one quantum away
  have above : sh * 2 ^ 52 + q' < b → (q' + 1) * 2 ^ sh ≤ magOf b := by
    intro hb
    rcases Nat.lt_or_ge q' (2 ^ 53) with h | h
    · rw [← magOf_succ h hsq]; exact magOf_le.2 hb
    · have e : q' = 2 ^ 53 := by omega
      subst e
      have h2 : magOf ((sh + 1) * 2 ^ 52 + (2 ^ 52 + 1)) ≤ magOf b := magOf_le.2 (by omega)
      rw [magOf_scaled (by norm_num) (.inr (by norm_num)), pow_succ 2 sh] at h2
      refine le_trans ?_ h2
      have : 1 ≤ 2 ^ sh := Nat.one_le_two_pow
      nlinarith
  -- the neighbour below is one quantum away, but where the value rounds down to the foot of its binade
  have below : b < sh * 2 ^ 52 + q' → magOf b + 2 ^ sh ≤ q' * 2 ^ sh ∨ q' = Q := by
    intro hb
    by_cases h : sh = 0 ∨ 2 ^ 52 + 1 ≤ q'
    · left
      have h1 : magOf b ≤ magOf (sh * 2 ^ 52 + (q' - 1)) := magOf_le.2 (by omega)
      rw [magOf_scaled (by omega) (by omega)] at h1
      have h2 : 1 ≤ q' := by omega
      calc magOf b + 2 ^ sh ≤ (q' - 1) * 2 ^ sh + 2 ^ sh := by omega
        _ = q' * 2 ^ sh := by rw [← Nat.succ_mul]; congr 1; omega
    · right; omega
  have assoc : d * (q' * 2 ^ sh) = d * 2 ^ sh * q' := by ring
  refine ⟨fun hb => ?_, fun hb => ?_, fun hb htie => ?_⟩
  · have h1 := Nat.mul_le_mul_left d (above hb)
    have h2 : d * ((q' + 1) * 2 ^ sh) = d * 2 ^ sh * q' + d * 2 ^ sh := by ring
    rw [Nat.mul_add, assoc]
    have h3 : d * 2 ^ sh * (2 * q' + 1) = 2 * (d * 2 ^ sh * q') + d * 2 ^ sh := by ring
    omega
  · rw [Nat.mul_add, assoc]
    rcases below hb with h | h
    · have h1 := Nat.mul_le_mul_left d h
      rw [Nat.mul_add, assoc] at h1
      omega
    · have h1 := hdown h
      have h2 : magOf b ≤ q' * 2 ^ sh := by rw [← magOf_scaled hq53 hsq]; exact magOf_le.2 hb.le
      have h3 := Nat.mul_le_mul_left d h2
      rw [assoc] at h3
      omega
  · rw [Nat.mul_add, assoc] at htie
    have h3 : d * 2 ^ sh * (2 * q' + 1) = 2 * (d * 2 ^ sh * q') + d * 2 ^ sh := by ring
    rcases Nat.lt_or_gt_of_ne hb with hlt | hgt
    · rcases below hlt with h | h
      · have h1 := Nat.mul_le_mul_left d h
        rw [Nat.mul_add, assoc] at h1
        exact heven2 (by omega)
      · exfalso
        have h1 := hdown h
        have h2 : magOf b < q' * 2 ^ sh := by rw [← magOf_scaled hq53 hsq]; exact magOf_lt.2 hlt
        have h4 := Nat.mul_lt_mul_of_pos_left h2 hd
        rw [assoc] at h4
        omega
    · have h1 := Nat.mul_le_mul_left d (above hgt)
      have h2 : d * ((q' + 1) * 2 ^ sh) = d * 2 ^ sh * q' + d * 2 ^ sh := by ring
      exact heven1 (by omega)

/-- A value that is a pattern's worth rounds to that pattern. -/
theorem rawBits_exact (b d : Nat) (hd : 0 < d) : rawBits (d * magOf b) d = b := by
  by_contra hne
  obtain ⟨h1, h2, _⟩ := rawBits_nearest (d * magOf b) d b hd
  rcases Nat.lt_or_gt_of_ne hne with h | h
  · have h3 := h1 h
    have h4 := Nat.mul_lt_mul_of_pos_left (magOf_lt.2 h) hd
    rw [Nat.mul_add] at h3; omega
  · have h3 := h2 h
    have h4 := Nat.mul_lt_mul_of_pos_left (magOf_lt.2 h) hd
    rw [Nat.mul_add] at h3; omega

/-- An exact value below the infinity rounds to itself. -/
theorem roundMag_exact {n d b : Nat} (hd : 0 < d) (hb : b < infBits) (h : n = d * magOf b) : roundMag n d = b := by
  rw [roundMag_eq, h, rawBits_exact b d hd]; omega

theorem roundMag_le (n d : Nat) : roundMag n d ≤ infBits := by rw [roundMag_eq]; exact Nat.min_le_right _ _

theorem infBits_lt : infBits < 2 ^ 63 := by decide

theorem roundMag_lt (n d : Nat) : roundMag n d < 2 ^ 63 := lt_of_le_of_lt (roundMag_le n d) infBits_lt

@[simp] theorem fbits_fround (neg : Bool) (n d : Nat) : fbits (fround neg n d) = roundMag n d :=
  fbits_fpack neg (roundMag_lt n d)

@[simp] theorem fsign_fround (neg : Bool) (n d : Nat) : fsign (fround neg n d) = neg := fsign_fpack neg (roundMag_lt n d)

theorem isNaN_fround (neg : Bool) (n d : Nat) : isNaN (fround neg n d) = false := by
  cases h : isNaN (fround neg n d)
  · rfl
  · have h1 := (isNaN_iff _).1 h
    have h2 := roundMag_le n d
    rw [fbits_fround] at h1; omega

/-- A rounded value is finite exactly below the overflow threshold. -/
theorem isFinite_fround_iff (neg : Bool) {n d : Nat} (hd : 0 < d) : isFinite (fround neg n d) = true ↔ ¬ Overflows n d := by
  rw [isFinite_iff, fbits_fround, roundMag_eq, Overflows]
  have hinf := magOf_infBits
  have hmax : magOf (infBits - 1) = (2 ^ 53 - 1) * 2 ^ 2045 := by
    have h : infBits - 1 = 2045 * 2 ^ 52 + (2 ^ 53 - 1) := by decide
    rw [h, magOf_scaled (by norm_num) (.inr (by norm_num))]
  have e1 : 2 ^ 52 * 2 ^ 2046 = (2 ^ 54 : Nat) * 2 ^ 2044 := by rw [← pow_add, ← pow_add]
  have e2 : (2 ^ 53 - 1) * 2 ^ 2045 = (2 ^ 54 - 2 : Nat) * 2 ^ 2044 := by
    rw [show (2 ^ 54 - 2 : Nat) = (2 ^ 53 - 1) * 2 by norm_num, Nat.mul_assoc, ← pow_succ']
  rw [e1] at hinf
  rw [e2] at hmax
  generalize 2 ^ 2044 = P at *
  constructor
  · intro h hov
    have hlt : rawBits n d < infBits := by omega
    obtain ⟨h1, -, h3⟩ := rawBits_nearest n d infBits hd
    have h2 := h1 hlt
    have h4 : magOf (rawBits n d) ≤ (2 ^ 54 - 2) * P := by rw [← hmax]; exact magOf_le.2 (by omega)
    rw [hinf] at h2 h3
    have h5 : d * (magOf (rawBits n d) + 2 ^ 54 * P) ≤ d * ((2 ^ 54 - 2) * P + 2 ^ 54 * P) := Nat.mul_le_mul_left d (by omega)
    have h6 : d * ((2 ^ 54 - 2) * P + 2 ^ 54 * P) = 2 * (d * ((2 ^ 54 - 1) * P)) := by ring
    have h7 : 2 * n = d * (magOf (rawBits n d) + 2 ^ 54 * P) := by omega
    have h8 := h3 (by omega) h7
    have h9 : magOf (rawBits n d) + 2 ^ 54 * P = (2 ^ 54 - 2) * P + 2 ^ 54 * P :=
      Nat.eq_of_mul_eq_mul_left hd (by omega)
    have h10 : magOf (rawBits n d) = magOf (infBits - 1) := by omega
    rw [magOf_inj] at h10
    have h11 : (infBits - 1) % 2 = 1 := by decide
    omega
  · intro h
    by_contra hge
    apply h
    have hge : infBits ≤ rawBits n d := by omega
    obtain ⟨-, h2, -⟩ := rawBits_nearest n d (infBits - 1) hd
    have h3 := h2 (by have : 0 < infBits := by decide
                      omega)
    have h4 : 2 ^ 54 * P ≤ magOf (rawBits n d) := by rw [← hinf]; exact magOf_le.2 hge
    rw [hmax] at h3
    have h5 : d * (2 ^ 54 * P + (2 ^ 54 - 2) * P) ≤ d * (magOf (rawBits n d) + (2 ^ 54 - 2) * P) :=
      Nat.mul_le_mul_left d (by omega)
    have h6 : d * (2 ^ 54 * P + (2 ^ 54 - 2) * P) = 2 * (d * ((2 ^ 54 - 1) * P)) := by ring
    omega

/-- The pattern of a finite rounded value. -/
theorem fbits_fround_of_isFinite {neg : Bool} {n d : Nat} (h : isFinite (fround neg n d) = true) :
    fbits (fround neg n d) = rawBits n d := by
  have := (isFinite_iff _).1 h
  rw [fbits_fround, roundMag_eq] at this ⊢; omega

/-- A finite rounded value is the nearest one, an even one where another is as near. -/
theorem fround_nearest (neg : Bool) {n d : Nat} (hd : 0 < d) (h : isFinite (fround neg n d) = true) :
    NearestEven n d (fround neg n d) := by
  intro c hc
  have hb := fbits_fround_of_isFinite h
  obtain ⟨h1, h2, h3⟩ := rawBits_nearest n d (fbits c) hd
  rw [fmag_eq, fmag_eq, hb, magOf_lt, magOf_lt, ffrac_eq, hb]
  refine ⟨h1, h2, fun hne htie => ?_⟩
  have := h3 (fun e => hne (by rw [e])) htie
  omega

/-- A finite value is what its own magnitude rounds to. -/
theorem fround_fmag {x : F64} (hx : isFinite x = true) {d : Nat} (hd : 0 < d) : fround (fsign x) (d * fmag x) d = x := by
  conv_rhs => rw [← fpack_fsign_fbits x]
  unfold fround
  rw [roundMag_exact hd ((isFinite_iff x).1 hx) (by rw [fmag_eq])]

/-! ### The primitives on finite values -/

theorem fadd_of_finite {a b : F64} (ha : isFinite a = true) (hb : isFinite b = true) :
    fadd a b = if fint a + fint b = 0 then fzero (fsign a && fsign b)
      else fround (decide (fint a + fint b < 0)) (fint a + fint b).natAbs 1 := by
  simp [fadd, isNaN_of_isFinite ha, isNaN_of_isFinite hb, isInf_of_isFinite ha, isInf_of_isFinite hb]

theorem fmul_of_finite {a b : F64} (ha : isFinite a = true) (hb : isFinite b = true) :
    fmul a b = fround (fsign a != fsign b) (fmag a * fmag b) unitsPerOne := by
  simp only [fmul, isNaN_of_isFinite ha, isNaN_of_isFinite hb, isInf_of_isFinite ha, isInf_of_isFinite hb, Bool.or_self,
    Bool.false_eq_true, if_false]

theorem fdiv_of_finite {a b : F64} (ha : isFinite a = true) (hb : isFinite b = true) (h0 : fmag b ≠ 0) :
    fdiv a b = fround (fsign a != fsign b) (fmag a * unitsPerOne) (fmag b) := by
  simp only [fdiv, isNaN_of_isFinite ha, isNaN_of_isFinite hb, isInf_of_isFinite ha, isInf_of_isFinite hb, Bool.or_self,
    Bool.false_eq_true, if_false, h0]

/-! ### The primitives on infinities -/

theorem fadd_of_isInf_left {a b : F64} (ha : isInf a = true) (hb : isNaN b = false) :
    fadd a b = if isInf b && fsign a != fsign b then f64NaN else a := by
  simp [fadd, isNaN_of_isInf ha, hb, ha]

theorem fadd_of_isInf_right {a b : F64} (ha : isFinite a = true) (hb : isInf b = true) : fadd a b = b := by
  simp [fadd, isNaN_of_isFinite ha, isNaN_of_isInf hb, isInf_of_isFinite ha, hb]

theorem fmul_of_isInf {a b : F64} (ha : isNaN a = false) (hb : isNaN b = false) (h : isInf a = true ∨ isInf b = true) :
    fmul a b = if fmag a = 0 ∨ fmag b = 0 then f64NaN else finf (fsign a != fsign b) := by
  simp only [fmul, ha, hb, Bool.or_self, Bool.false_eq_true, if_false, Bool.or_eq_true, h, if_true]

theorem fdiv_of_isInf_left {a b : F64} (ha : isInf a = true) (hb : isNaN b = false) :
    fdiv a b = if isInf b then f64NaN else finf (fsign a != fsign b) := by
  simp [fdiv, isNaN_of_isInf ha, hb, ha]

theorem fdiv_of_isInf_right {a b : F64} (ha : isFinite a = true) (hb : isInf b = true) :
    fdiv a b = fzero (fsign a != fsign b) := by
  simp [fdiv, isNaN_of_isFinite ha, isNaN_of_isInf hb, isInf_of_isFinite ha, hb]

theorem fdiv_by_zero {a b : F64} (ha : isFinite a = true) (hb : isFinite b = true) (h0 : fmag b = 0) :
    fdiv a b = if fmag a = 0 then f64NaN else finf (fsign a != fsign b) := by
  simp [fdiv, isNaN_of_isFinite ha, isNaN_of_isFinite hb, isInf_of_isFinite ha, isInf_of_isFinite hb, h0]

/-! ### Zeros -/

theorem roundMag_zero (d : Nat) (hd : 0 < d) : roundMag 0 d = 0 :=
  roundMag_exact hd (by decide) (by simp)

theorem fzero_eq_fround (neg : Bool) : fzero neg = fround neg 0 1 := by
  rw [fzero, fround, roundMag_zero 1 Nat.one_pos]

/-! ### The integer square root -/

theorem isqrtBits_spec (n : Nat) : ∀ k r, r * r ≤ n → n < (r + 2 ^ k) * (r + 2 ^ k) →
    isqrtBits n k r * isqrtBits n k r ≤ n ∧ n < (isqrtBits n k r + 1) * (isqrtBits n k r + 1) := by
  intro k
  induction k with
  | zero => intro r h1 h2; exact ⟨h1, by simpa [isqrtBits] using h2⟩
  | succ k ih =>
    intro r h1 h2
    simp only [isqrtBits]
    split
    · refine ih _ ‹_› ?_
      rw [pow_succ] at h2
      rwa [show r + 2 ^ k + 2 ^ k = r + 2 ^ k * 2 by ring]
    · exact ih _ h1 (by omega)

/-- `isqrt n` is the greatest number whose square is at most `n`. -/
theorem isqrt_spec (n : Nat) : isqrt n * isqrt n ≤ n ∧ n < (isqrt n + 1) * (isqrt n + 1) := by
  refine isqrtBits_spec n _ 0 (by omega) ?_
  have h : n < 2 ^ (n.log2 + 1) := Nat.lt_log2_self
  rw [Nat.zero_add, ← pow_add]
  exact lt_of_lt_of_le h (Nat.pow_le_pow_right (by norm_num) (by omega))

end Sys2Proof.Machine
end

