-- ==== Sys2Proof/Laws/State.lean ====
section
/-! SUPPORT. What each named update of State does to each field it leaves alone or sets, by rfl. -/

namespace Sys2Proof.Machine

open Sys2Proof

@[simp] theorem State.accept_dmem (s : State) (w : Word) : (s.accept w).dmem = s.dmem := rfl
@[simp] theorem State.accept_ctrlIe (s : State) (w : Word) : (s.accept w).ctrlIe = s.ctrlIe := rfl
@[simp] theorem State.accept_busy (s : State) (w : Word) : (s.accept w).busy = true := rfl
@[simp] theorem State.accept_done (s : State) (w : Word) : (s.accept w).done = false := rfl
@[simp] theorem State.accept_err (s : State) (w : Word) : (s.accept w).err = s.err := rfl
@[simp] theorem State.accept_ovr (s : State) (w : Word) : (s.accept w).ovr = s.ovr := rfl
@[simp] theorem State.accept_voiced (s : State) (w : Word) : (s.accept w).voiced = s.voiced := rfl
@[simp] theorem State.accept_errcode (s : State) (w : Word) : (s.accept w).errcode = s.errcode := rfl
@[simp] theorem State.accept_cmd (s : State) (w : Word) : (s.accept w).cmd = w := rfl
@[simp] theorem State.accept_arg (s : State) (w : Word) : (s.accept w).arg = s.arg := rfl
@[simp] theorem State.accept_result0 (s : State) (w : Word) : (s.accept w).result0 = s.result0 := rfl
@[simp] theorem State.accept_result1 (s : State) (w : Word) : (s.accept w).result1 = s.result1 := rfl
@[simp] theorem State.accept_prng (s : State) (w : Word) : (s.accept w).prng = s.prng := rfl
@[simp] theorem State.accept_lat (s : State) (w : Word) : (s.accept w).lat = { cmd := w, arg := s.arg, prng := s.prng } := rfl
@[simp] theorem State.accept_dmemWords (s : State) (w : Word) : (s.accept w).dmemWords = s.dmemWords := rfl
@[simp] theorem State.accept_schedule (s : State) (w : Word) : (s.accept w).schedule = s.schedule := rfl
@[simp] theorem State.accept_reply (s : State) (w : Word) : (s.accept w).reply = s.reply := rfl

@[simp] theorem State.completeOk_dmem (s : State) (e : Effect) : (s.completeOk e).dmem = s.dmem.writeAll e.writes := rfl
@[simp] theorem State.completeOk_ctrlIe (s : State) (e : Effect) : (s.completeOk e).ctrlIe = s.ctrlIe := rfl
@[simp] theorem State.completeOk_busy (s : State) (e : Effect) : (s.completeOk e).busy = false := rfl
@[simp] theorem State.completeOk_done (s : State) (e : Effect) : (s.completeOk e).done = true := rfl
@[simp] theorem State.completeOk_err (s : State) (e : Effect) : (s.completeOk e).err = s.err := rfl
@[simp] theorem State.completeOk_ovr (s : State) (e : Effect) : (s.completeOk e).ovr = s.ovr := rfl
@[simp] theorem State.completeOk_voiced (s : State) (e : Effect) : (s.completeOk e).voiced = e.voiced := rfl
@[simp] theorem State.completeOk_errcode (s : State) (e : Effect) : (s.completeOk e).errcode = codeBits .ok := rfl
@[simp] theorem State.completeOk_cmd (s : State) (e : Effect) : (s.completeOk e).cmd = s.cmd := rfl
@[simp] theorem State.completeOk_arg (s : State) (e : Effect) : (s.completeOk e).arg = s.arg := rfl
@[simp] theorem State.completeOk_result0 (s : State) (e : Effect) : (s.completeOk e).result0 = BitVec.ofNat 64 e.r0 := rfl
@[simp] theorem State.completeOk_result1 (s : State) (e : Effect) : (s.completeOk e).result1 = BitVec.ofNat 64 e.r1 := rfl
@[simp] theorem State.completeOk_prng (s : State) (e : Effect) : (s.completeOk e).prng = e.prng.getD s.prng := rfl
@[simp] theorem State.completeOk_lat (s : State) (e : Effect) : (s.completeOk e).lat = s.lat := rfl
@[simp] theorem State.completeOk_dmemWords (s : State) (e : Effect) : (s.completeOk e).dmemWords = s.dmemWords := rfl
@[simp] theorem State.completeOk_schedule (s : State) (e : Effect) : (s.completeOk e).schedule = s.schedule := rfl
@[simp] theorem State.completeOk_reply (s : State) (e : Effect) : (s.completeOk e).reply = s.reply := rfl

@[simp] theorem State.completeError_dmem (s : State) (c : Code) : (s.completeError c).dmem = s.dmem := rfl
@[simp] theorem State.completeError_ctrlIe (s : State) (c : Code) : (s.completeError c).ctrlIe = s.ctrlIe := rfl
@[simp] theorem State.completeError_busy (s : State) (c : Code) : (s.completeError c).busy = false := rfl
@[simp] theorem State.completeError_done (s : State) (c : Code) : (s.completeError c).done = true := rfl
@[simp] theorem State.completeError_err (s : State) (c : Code) : (s.completeError c).err = true := rfl
@[simp] theorem State.completeError_ovr (s : State) (c : Code) : (s.completeError c).ovr = s.ovr := rfl
@[simp] theorem State.completeError_voiced (s : State) (c : Code) : (s.completeError c).voiced = false := rfl
@[simp] theorem State.completeError_errcode (s : State) (c : Code) : (s.completeError c).errcode = codeBits c := rfl
@[simp] theorem State.completeError_cmd (s : State) (c : Code) : (s.completeError c).cmd = s.cmd := rfl
@[simp] theorem State.completeError_arg (s : State) (c : Code) : (s.completeError c).arg = s.arg := rfl
@[simp] theorem State.completeError_result0 (s : State) (c : Code) : (s.completeError c).result0 = 0 := rfl
@[simp] theorem State.completeError_result1 (s : State) (c : Code) : (s.completeError c).result1 = 0 := rfl
@[simp] theorem State.completeError_prng (s : State) (c : Code) : (s.completeError c).prng = s.prng := rfl
@[simp] theorem State.completeError_lat (s : State) (c : Code) : (s.completeError c).lat = s.lat := rfl
@[simp] theorem State.completeError_dmemWords (s : State) (c : Code) : (s.completeError c).dmemWords = s.dmemWords := rfl
@[simp] theorem State.completeError_schedule (s : State) (c : Code) : (s.completeError c).schedule = s.schedule := rfl
@[simp] theorem State.completeError_reply (s : State) (c : Code) : (s.completeError c).reply = s.reply := rfl

@[simp] theorem State.clearStatus_dmem (s : State) (v : Word) : (s.clearStatus v).dmem = s.dmem := rfl
@[simp] theorem State.clearStatus_ctrlIe (s : State) (v : Word) : (s.clearStatus v).ctrlIe = s.ctrlIe := rfl
@[simp] theorem State.clearStatus_busy (s : State) (v : Word) : (s.clearStatus v).busy = s.busy := rfl
@[simp] theorem State.clearStatus_done (s : State) (v : Word) : (s.clearStatus v).done = (s.done && !v.getLsbD 1) := rfl
@[simp] theorem State.clearStatus_err (s : State) (v : Word) : (s.clearStatus v).err = (s.err && !v.getLsbD 2) := rfl
@[simp] theorem State.clearStatus_ovr (s : State) (v : Word) : (s.clearStatus v).ovr = (s.ovr && !v.getLsbD 3) := rfl
@[simp] theorem State.clearStatus_voiced (s : State) (v : Word) : (s.clearStatus v).voiced = s.voiced := rfl
@[simp] theorem State.clearStatus_errcode (s : State) (v : Word) : (s.clearStatus v).errcode = s.errcode := rfl
@[simp] theorem State.clearStatus_cmd (s : State) (v : Word) : (s.clearStatus v).cmd = s.cmd := rfl
@[simp] theorem State.clearStatus_arg (s : State) (v : Word) : (s.clearStatus v).arg = s.arg := rfl
@[simp] theorem State.clearStatus_result0 (s : State) (v : Word) : (s.clearStatus v).result0 = s.result0 := rfl
@[simp] theorem State.clearStatus_result1 (s : State) (v : Word) : (s.clearStatus v).result1 = s.result1 := rfl
@[simp] theorem State.clearStatus_prng (s : State) (v : Word) : (s.clearStatus v).prng = s.prng := rfl
@[simp] theorem State.clearStatus_lat (s : State) (v : Word) : (s.clearStatus v).lat = s.lat := rfl
@[simp] theorem State.clearStatus_dmemWords (s : State) (v : Word) : (s.clearStatus v).dmemWords = s.dmemWords := rfl
@[simp] theorem State.clearStatus_schedule (s : State) (v : Word) : (s.clearStatus v).schedule = s.schedule := rfl
@[simp] theorem State.clearStatus_reply (s : State) (v : Word) : (s.clearStatus v).reply = s.reply := rfl

@[simp] theorem State.answer_dmem (s : State) (r : Reply) : (s.answer r).dmem = s.dmem := rfl
@[simp] theorem State.answer_ctrlIe (s : State) (r : Reply) : (s.answer r).ctrlIe = s.ctrlIe := rfl
@[simp] theorem State.answer_busy (s : State) (r : Reply) : (s.answer r).busy = s.busy := rfl
@[simp] theorem State.answer_done (s : State) (r : Reply) : (s.answer r).done = s.done := rfl
@[simp] theorem State.answer_err (s : State) (r : Reply) : (s.answer r).err = s.err := rfl
@[simp] theorem State.answer_ovr (s : State) (r : Reply) : (s.answer r).ovr = s.ovr := rfl
@[simp] theorem State.answer_voiced (s : State) (r : Reply) : (s.answer r).voiced = s.voiced := rfl
@[simp] theorem State.answer_errcode (s : State) (r : Reply) : (s.answer r).errcode = s.errcode := rfl
@[simp] theorem State.answer_cmd (s : State) (r : Reply) : (s.answer r).cmd = s.cmd := rfl
@[simp] theorem State.answer_arg (s : State) (r : Reply) : (s.answer r).arg = s.arg := rfl
@[simp] theorem State.answer_result0 (s : State) (r : Reply) : (s.answer r).result0 = s.result0 := rfl
@[simp] theorem State.answer_result1 (s : State) (r : Reply) : (s.answer r).result1 = s.result1 := rfl
@[simp] theorem State.answer_prng (s : State) (r : Reply) : (s.answer r).prng = s.prng := rfl
@[simp] theorem State.answer_lat (s : State) (r : Reply) : (s.answer r).lat = s.lat := rfl
@[simp] theorem State.answer_dmemWords (s : State) (r : Reply) : (s.answer r).dmemWords = s.dmemWords := rfl
@[simp] theorem State.answer_schedule (s : State) (r : Reply) : (s.answer r).schedule = s.schedule := rfl
@[simp] theorem State.answer_reply (s : State) (r : Reply) : (s.answer r).reply = some r := rfl

@[simp] theorem State.applyReset_dmem (s : State) : s.applyReset.dmem = State.reset.dmem := rfl
@[simp] theorem State.applyReset_ctrlIe (s : State) : s.applyReset.ctrlIe = State.reset.ctrlIe := rfl
@[simp] theorem State.applyReset_busy (s : State) : s.applyReset.busy = State.reset.busy := rfl
@[simp] theorem State.applyReset_done (s : State) : s.applyReset.done = State.reset.done := rfl
@[simp] theorem State.applyReset_err (s : State) : s.applyReset.err = State.reset.err := rfl
@[simp] theorem State.applyReset_ovr (s : State) : s.applyReset.ovr = State.reset.ovr := rfl
@[simp] theorem State.applyReset_voiced (s : State) : s.applyReset.voiced = State.reset.voiced := rfl
@[simp] theorem State.applyReset_errcode (s : State) : s.applyReset.errcode = State.reset.errcode := rfl
@[simp] theorem State.applyReset_cmd (s : State) : s.applyReset.cmd = State.reset.cmd := rfl
@[simp] theorem State.applyReset_arg (s : State) : s.applyReset.arg = State.reset.arg := rfl
@[simp] theorem State.applyReset_result0 (s : State) : s.applyReset.result0 = State.reset.result0 := rfl
@[simp] theorem State.applyReset_result1 (s : State) : s.applyReset.result1 = State.reset.result1 := rfl
@[simp] theorem State.applyReset_prng (s : State) : s.applyReset.prng = State.reset.prng := rfl
@[simp] theorem State.applyReset_lat (s : State) : s.applyReset.lat = State.reset.lat := rfl
@[simp] theorem State.applyReset_dmemWords (s : State) : s.applyReset.dmemWords = s.dmemWords := rfl
@[simp] theorem State.applyReset_schedule (s : State) : s.applyReset.schedule = s.schedule := rfl
@[simp] theorem State.applyReset_reply (s : State) : s.applyReset.reply = State.reset.reply := rfl

end Sys2Proof.Machine
end

