-- ==== Sys2Proof/Laws/HostPort.lean ====
section
/-! SUPPORT. What the port's decoding answers (20_memory.md R91), the bits of the register values, and everything `hread` and `hwrite`
can do. -/

namespace Sys2Proof.Machine

open Sys2Proof

/-! ### Decoding a transaction -/

theorem target_of_offset {W : Nat} {off : BitVec 20} {k : Nat} (h : off.toNat = 8 * k) (hk : k ≤ 11) :
    target W 8 off = (regAt k).map .reg := by
  unfold target
  rw [if_neg (by simp), if_neg (by omega), if_pos (by omega), h, Nat.mul_div_cancel_left _ (by norm_num)]

theorem target_of_dmem {W : Nat} {off : BitVec 20} {i : Nat} (h : off.toNat = 0x80000 + 8 * i) (hi : i < W) :
    target W 8 off = some (.dmem i) := by
  unfold target
  rw [if_neg (by simp), if_neg (by omega), if_neg (by omega), if_pos (by omega), show (off.toNat - 0x80000) / 8 = i by omega]

theorem regAt_isSome {k : Nat} (h : k ≤ 11) : ∃ r, regAt k = some r := by
  interval_cases k <;> exact ⟨_, rfl⟩

theorem target_eq_none_iff {W size : Nat} {off : BitVec 20} :
    target W size off = none ↔
      size ≠ 8 ∨ off.toNat % 8 ≠ 0 ∨ (0x60 ≤ off.toNat ∧ off.toNat < 0x80000) ∨ 0x80000 + 8 * W ≤ off.toNat := by
  by_cases h1 : size = 8
  · by_cases h2 : off.toNat % 8 = 0
    · by_cases h3 : off.toNat ≤ 0x58
      · subst h1
        rw [target_of_offset (k := off.toNat / 8) (by omega) (by omega)]
        obtain ⟨r, hr⟩ := regAt_isSome (k := off.toNat / 8) (by omega)
        simp only [hr, Option.map_some, reduceCtorEq, false_iff]
        omega
      · unfold target
        rw [if_neg (by simp [h1]), if_neg (by simp [h2]), if_neg h3]
        split <;> simp only [reduceCtorEq, true_iff, false_iff] <;> omega
    · simp [target, h1, h2]
  · simp [target, h1]

theorem target_eq_dmem {W size : Nat} {off : BitVec 20} {i : Nat} (h : target W size off = some (.dmem i)) :
    size = 8 ∧ off.toNat = 0x80000 + 8 * i ∧ i < W := by
  unfold target at h
  split at h
  · simp at h
  · split at h
    · simp at h
    · split at h
      · simp [Option.map_eq_some_iff] at h
      · split at h
        · simp only [Option.some.injEq, Target.dmem.injEq] at h; omega
        · simp at h

/-- The offset a register stands at (10_state.md R44). -/
def offsetOf : Reg → Nat
  | .id => 0x00
  | .hwcfg => 0x08
  | .ctrl => 0x10
  | .status => 0x18
  | .cmd => 0x20
  | .arg0 => 0x28
  | .arg1 => 0x30
  | .arg2 => 0x38
  | .arg3 => 0x40
  | .result0 => 0x48
  | .result1 => 0x50
  | .prngState => 0x58

theorem regAt_offset {k : Nat} {r : Reg} (hk : k ≤ 11) (h : regAt k = some r) : 8 * k = offsetOf r := by
  interval_cases k <;> simp only [regAt, Option.some.injEq] at h <;> subst h <;> rfl

theorem target_eq_reg {W size : Nat} {off : BitVec 20} {r : Reg} (h : target W size off = some (.reg r)) :
    size = 8 ∧ off.toNat = offsetOf r := by
  unfold target at h
  split at h
  · simp at h
  · split at h
    · simp at h
    · split at h
      · simp only [Option.map_eq_some_iff, Target.reg.injEq, exists_eq_right] at h
        have := regAt_offset (by omega) h
        omega
      · split at h <;> simp at h

theorem target_of_reg (W : Nat) {off : BitVec 20} {r : Reg} (h : off.toNat = offsetOf r) : target W 8 off = some (.reg r) := by
  cases r <;> simp only [offsetOf] at h
  · exact target_of_offset (k := 0) h (by norm_num)
  · exact target_of_offset (k := 1) h (by norm_num)
  · exact target_of_offset (k := 2) h (by norm_num)
  · exact target_of_offset (k := 3) h (by norm_num)
  · exact target_of_offset (k := 4) h (by norm_num)
  · exact target_of_offset (k := 5) h (by norm_num)
  · exact target_of_offset (k := 6) h (by norm_num)
  · exact target_of_offset (k := 7) h (by norm_num)
  · exact target_of_offset (k := 8) h (by norm_num)
  · exact target_of_offset (k := 9) h (by norm_num)
  · exact target_of_offset (k := 10) h (by norm_num)
  · exact target_of_offset (k := 11) h (by norm_num)

/-! ### What a transaction does -/

theorem hread_reg {s : State} {off : BitVec 20} (r : Reg) (h : off.toNat = offsetOf r) :
    hread s 8 off = .next (s.answer (.read (s.readReg r) .okay)) := by
  unfold hread
  rw [target_of_reg _ h]

theorem hwrite_reg {s : State} {off : BitVec 20} {v : Word} (r : Reg) (h : off.toNat = offsetOf r)
    (hb : s.busy = true → r ≠ .prngState) : hwrite s 8 off v = .next ((s.writeReg v r).answer (.write .okay)) := by
  unfold hwrite
  rw [target_of_reg _ h]
  exact if_neg fun ⟨h1, h2⟩ => hb h1 h2

/-- A read that ends in a next state changes the answer alone. -/
theorem hread_next {s t : State} {size : Nat} {off : BitVec 20} (h : hread s size off = .next t) :
    ∃ r, t = s.answer r := by
  unfold hread at h
  split at h
  · exact ⟨_, (Host.Outcome.next.inj h).symm⟩
  · exact ⟨_, (Host.Outcome.next.inj h).symm⟩
  · split at h
    · exact ⟨_, (Host.Outcome.next.inj h).symm⟩
    · split at h
      · cases h
      · exact ⟨_, (Host.Outcome.next.inj h).symm⟩

/-- A write always ends in a next state: turned away with the answer ERROR, or one register, or one DMEM word while idle. -/
theorem hwrite_next {s t : State} {size : Nat} {off : BitVec 20} {v : Word} (h : hwrite s size off v = .next t) :
    t = s.answer (.write .error) ∨
      (∃ r, size = 8 ∧ off.toNat = offsetOf r ∧ (s.busy = true → r ≠ .prngState) ∧ t = (s.writeReg v r).answer (.write .okay)) ∨
      (∃ i, size = 8 ∧ off.toNat = 0x80000 + 8 * i ∧ i < s.dmemWords ∧ s.busy = false ∧
        t = ({ s with dmem := s.dmem.writeWord i v } : State).answer (.write .okay)) := by
  unfold hwrite at h
  split at h
  · exact .inl (Host.Outcome.next.inj h).symm
  · split at h
    · exact .inl (Host.Outcome.next.inj h).symm
    · obtain ⟨h1, h2⟩ := target_eq_reg ‹_›
      rename_i hn
      exact .inr (.inl ⟨_, h1, h2, fun hb hr => hn ⟨hb, hr⟩, (Host.Outcome.next.inj h).symm⟩)
  · obtain ⟨h1, h2, h3⟩ := target_eq_dmem ‹_›
    split at h
    · exact .inl (Host.Outcome.next.inj h).symm
    · rename_i hn
      exact .inr (.inr ⟨_, h1, h2, h3, by simpa using hn, (Host.Outcome.next.inj h).symm⟩)

theorem hwrite_completes (s : State) (size : Nat) (off : BitVec 20) (v : Word) : ∃ t, hwrite s size off v = .next t := by
  unfold hwrite
  split
  · exact ⟨_, rfl⟩
  · split <;> exact ⟨_, rfl⟩
  · split <;> exact ⟨_, rfl⟩

/-! ### Bits of STATUS (10_state.md R50) -/

theorem toNat_append_eq_add {n m : Nat} (x : BitVec n) (y : BitVec m) : (x ++ y).toNat = x.toNat * 2 ^ m + y.toNat := by
  rw [BitVec.toNat_append, ← Nat.shiftLeft_add_eq_or_of_lt y.isLt, Nat.shiftLeft_eq]

/-- STATUS as a sum of its fields. -/
theorem toNat_status (s : State) :
    s.status.toNat = 256 * s.errcode.toNat + 16 * s.voiced.toNat + 8 * s.ovr.toNat + 4 * s.err.toNat + 2 * s.done.toNat + s.busy.toNat := by
  unfold State.status
  simp only [toNat_append_eq_add, BitVec.toNat_ofBool, BitVec.toNat_ofNat]
  omega

end Sys2Proof.Machine
end

