-- ==== Sys2Proof/Laws/Kernels.lean ====
section
/-! SUPPORT. The lengths of what the kernels return, and induction over Burg's stages. -/

namespace Sys2Proof.Machine

open Sys2Proof

@[simp] theorem length_burgCoefs (a : List F64) (m : Nat) (k : F64) : (burgCoefs a m k).length = a.length := by
  simp [burgCoefs]

/-- A property of what the recursion carries holds at its end if it holds at the start of stage `m` and every stage keeps it
(40_lpc.md R163). -/
theorem burgLoop_induction {n : Nat} (P : Nat → Burg → Prop)
    (hs : ∀ m b, P m b → fle (burgDen b m (n - m)) f64EpsDen = false → P (m + 1) (burgStage b m (n - m))) :
    ∀ count m b, P m b → ∃ m', m ≤ m' ∧ m' ≤ m + count ∧ P m' (burgLoop n count m b) := by
  intro count
  induction count with
  | zero => exact fun m b h => ⟨m, Nat.le_refl _, Nat.le_refl _, h⟩
  | succ c ih =>
    intro m b h
    unfold burgLoop
    split
    · exact ⟨m, Nat.le_refl _, by omega, h⟩
    · rename_i hf
      obtain ⟨m', h1, h2, h3⟩ := ih (m + 1) _ (hs m b h (by simpa using hf))
      exact ⟨m', by omega, by omega, h3⟩

@[simp] theorem length_burg (x : List F64) (p : Nat) : (burg x p).1.length = p + 1 := by
  obtain ⟨_, _, _, h⟩ := burgLoop_induction (n := x.length) (fun _ b => b.a.length = p + 1)
    (fun m b h _ => by simpa [burgStage] using h) p 1 (burgInit x p) (by simp [burgInit])
  exact h

@[simp] theorem length_resonance (f bw rate : F64) : (resonance f bw rate).length = 3 := rfl

@[simp] theorem length_conv (p q : List F64) : (conv p q).length = p.length + q.length - 1 := by simp [conv]

@[simp] theorem length_gauss (s : U32) (n : Nat) : (gauss s n).1.length = n := by
  induction n generalizing s with
  | zero => rfl
  | succ n ih => simp [gauss, ih]

/-- The refinement descends while the next value is below, and stops at the end of its fuel or where it is not (42_yin.md R205). -/
theorem yinRefine_spec (cmnd : List F64) : ∀ fuel t,
    t ≤ yinRefine cmnd fuel t ∧ yinRefine cmnd fuel t ≤ t + fuel ∧
      (∀ u, t ≤ u → u < yinRefine cmnd fuel t → flt (elem cmnd (u + 1)) (elem cmnd u) = true) ∧
      (yinRefine cmnd fuel t + 1 ≤ t + fuel →
        flt (elem cmnd (yinRefine cmnd fuel t + 1)) (elem cmnd (yinRefine cmnd fuel t)) = false) := by
  intro fuel
  induction fuel with
  | zero => exact fun t => ⟨Nat.le_refl _, Nat.le_refl _, fun u h1 h2 => absurd h2 (by simp only [yinRefine]; omega), fun h => absurd h (by simp only [yinRefine]; omega)⟩
  | succ f ih =>
    intro t
    simp only [yinRefine]
    split
    · rename_i hf
      obtain ⟨a, b, c, d⟩ := ih (t + 1)
      refine ⟨by omega, by omega, fun u h1 h2 => ?_, fun h => d (by omega)⟩
      rcases Nat.eq_or_lt_of_le h1 with rfl | h
      · exact hf
      · exact c u (by omega) h2
    · rename_i hf
      exact ⟨Nat.le_refl _, by omega, fun u h1 h2 => absurd h2 (by omega), fun _ => by simpa using hf⟩

/-- Two turns of an iterated function at its inner end. (State it of any `f`: the kernel must not be led to unfold `lcg`, whose
constants are large.) -/
theorem iterate_two_mul_succ {α : Type} (f : α → α) (k j : Nat) (x : α) : f^[2 * (k + 1) + j] x = f^[2 * k + j] (f (f x)) := by
  rw [show 2 * (k + 1) + j = 2 * k + j + 1 + 1 by ring, Function.iterate_succ_apply, Function.iterate_succ_apply]

end Sys2Proof.Machine
end

