-- ==== Sys2Proof/Laws/Memory.lean ====
section
/-! SUPPORT. DMEM: a read after a write gives what was written, a write leaves every other byte alone, and every memory operation
keeps the canonical form. -/

namespace Sys2Proof.Machine

open Sys2Proof

/-! ### One byte -/

@[simp] theorem Mem.read_nil (a : Nat) : Mem.read [] a = none := rfl

theorem Mem.read_write (m : Mem) (a x : Nat) (b : BitVec 8) :
    (m.write a b).read x = if x = a then some b else m.read x := by
  induction m with
  | nil => simp only [Mem.write, Mem.read]; grind
  | cons c m ih =>
    obtain ⟨k, c⟩ := c
    simp only [Mem.write]
    split
    · simp only [Mem.read, ih]; grind
    · split <;> simp only [Mem.read] <;> grind

theorem Mem.write_keys (m : Mem) (a : Nat) (b : BitVec 8) (x : Host.Cell) (h : x ∈ m.write a b) : x.1 = a ∨ x ∈ m := by
  induction m with
  | nil => simp only [Mem.write, List.mem_singleton] at h; simp [h]
  | cons c m ih =>
    obtain ⟨k, c⟩ := c
    simp only [Mem.write] at h
    split at h
    · rcases List.mem_cons.1 h with h | h
      · simp [h]
      · rcases ih h with h | h <;> simp [h]
    · split at h
      · rcases List.mem_cons.1 h with h | h <;> simp [h]
      · rcases List.mem_cons.1 h with h | h
        · simp [h]
        · exact .inr h

theorem Mem.wf_nil : Mem.wf [] := List.Pairwise.nil

theorem Mem.wf_write {m : Mem} (h : m.wf) (a : Nat) (b : BitVec 8) : (m.write a b).wf := by
  induction m with
  | nil => simp [Mem.write, Mem.wf]
  | cons c m ih =>
    obtain ⟨k, c⟩ := c
    have hk := List.pairwise_cons.1 h
    simp only [Mem.write]
    split
    · refine List.pairwise_cons.2 ⟨fun x hx => ?_, ih hk.2⟩
      rcases Mem.write_keys m a b x hx with e | e
      · simpa [e] using ‹k < a›
      · exact hk.1 x e
    · split
      · subst k; exact List.pairwise_cons.2 ⟨hk.1, hk.2⟩
      · refine List.pairwise_cons.2 ⟨fun x hx => ?_, h⟩
        rcases List.mem_cons.1 hx with e | e
        · subst e; simp only; omega
        · have := hk.1 x e; simp only at this ⊢; omega

/-! ### Several bytes -/

theorem Mem.read_writeLE (n : Nat) : ∀ (m : Mem) (a v x : Nat),
    (m.writeLE a v n).read x
      = if a ≤ x ∧ x < a + n then some (BitVec.ofNat 8 (v / 256 ^ (x - a))) else m.read x := by
  induction n with
  | zero => intro m a v x; simp only [Mem.writeLE]; rw [if_neg (by omega)]
  | succ n ih =>
    intro m a v x
    simp only [Mem.writeLE, ih, Mem.read_write]
    by_cases h1 : a + 1 ≤ x ∧ x < a + 1 + n
    · rw [if_pos h1, if_pos (by omega)]
      obtain ⟨d, rfl⟩ : ∃ d, x = a + 1 + d := ⟨x - (a + 1), by omega⟩
      rw [show a + 1 + d - (a + 1) = d by omega, show a + 1 + d - a = d + 1 by omega, pow_succ', Nat.div_div_eq_div_mul]
    · rw [if_neg h1]
      by_cases h2 : x = a
      · subst h2; simp
      · rw [if_neg h2, if_neg (by omega)]

theorem Mem.wf_writeLE (n : Nat) : ∀ {m : Mem}, m.wf → ∀ a v, (m.writeLE a v n).wf := by
  induction n with
  | zero => intro m h a v; exact h
  | succ n ih => intro m h a v; exact ih (Mem.wf_write h _ _) _ _

theorem Mem.readLE_congr {m m' : Mem} (n : Nat) : ∀ a, (∀ x, a ≤ x → x < a + n → m.read x = m'.read x) →
    m.readLE a n = m'.readLE a n := by
  induction n with
  | zero => intro a _; rfl
  | succ n ih =>
    intro a h
    simp only [Mem.readLE]
    rw [h a (by omega) (by omega), ih (a + 1) (fun x h1 h2 => h x (by omega) (by omega))]

theorem Mem.readLE_writeLE (n : Nat) : ∀ (m : Mem) (a v : Nat), (m.writeLE a v n).readLE a n = some (v % 256 ^ n) := by
  induction n with
  | zero => intro m a v; simp [Mem.readLE, Nat.mod_one]
  | succ n ih =>
    intro m a v
    have h0 : (m.writeLE a v (n + 1)).read a = some (BitVec.ofNat 8 v) := by
      rw [Mem.read_writeLE]; simp
    have h1 : (m.writeLE a v (n + 1)).readLE (a + 1) n = some (v / 256 % 256 ^ n) := by
      simpa only [Mem.writeLE] using ih (m.write a (BitVec.ofNat 8 v)) (a + 1) (v / 256)
    rw [Mem.readLE, h0, h1]
    simp only [Option.map_some, Option.some.injEq, BitVec.toNat_ofNat]
    rw [show 256 ^ (n + 1) = 256 * 256 ^ n from pow_succ' 256 n, Nat.mod_mul]

theorem Mem.readLE_isSome_iff (m : Mem) (n : Nat) : ∀ a,
    (m.readLE a n).isSome ↔ ∀ x, a ≤ x → x < a + n → (m.read x).isSome := by
  induction n with
  | zero => intro a; simp only [Mem.readLE, Option.isSome_some, true_iff]; omega
  | succ n ih =>
    intro a
    simp only [Mem.readLE]
    cases h : m.read a with
    | none =>
      simp only [Option.isSome_none, Bool.false_eq_true, false_iff]
      intro hx
      simpa [h] using hx a (by omega) (by omega)
    | some b =>
      simp only [Option.isSome_map, ih]
      constructor
      · intro hx x h1 h2
        by_cases e : x = a
        · simp [e, h]
        · exact hx x (by omega) (by omega)
      · intro hx x h1 h2; exact hx x (by omega) (by omega)

/-! ### Words -/

theorem Mem.readWord_writeWord (m : Mem) (i : Nat) (v : Word) : (m.writeWord i v).readWord i = some v := by
  rw [Mem.readWord, Mem.writeWord, Mem.readLE_writeLE, Nat.mod_eq_of_lt (show v.toNat < 256 ^ 8 from v.isLt)]
  simp

theorem Mem.readWord_congr {m m' : Mem} (i : Nat) (h : ∀ x, 8 * i ≤ x → x < 8 * i + 8 → m.read x = m'.read x) :
    m.readWord i = m'.readWord i := by
  simp only [Mem.readWord, Mem.readLE_congr 8 (8 * i) h]

/-- A word is written exactly when each of its bytes is. -/
theorem Mem.readWord_isSome_iff (m : Mem) (i : Nat) :
    (m.readWord i).isSome ↔ ∀ x, 8 * i ≤ x → x < 8 * i + 8 → (m.read x).isSome := by
  simp only [Mem.readWord, Option.isSome_map, Mem.readLE_isSome_iff]

theorem Mem.read_writeWord_outside (m : Mem) (i : Nat) (v : Word) (x : Nat) (h : x < 8 * i ∨ 8 * i + 8 ≤ x) :
    (m.writeWord i v).read x = m.read x := by
  rw [Mem.writeWord, Mem.read_writeLE, if_neg (by omega)]

theorem Mem.read_writeWord_inside (m : Mem) (i : Nat) (v : Word) (x : Nat) (h : 8 * i ≤ x ∧ x < 8 * i + 8) :
    ((m.writeWord i v).read x).isSome := by
  rw [Mem.writeWord, Mem.read_writeLE, if_pos h]; rfl

theorem Mem.readWord_writeWord_other (m : Mem) (i j : Nat) (v : Word) (h : j ≠ i) :
    (m.writeWord i v).readWord j = m.readWord j :=
  Mem.readWord_congr j fun x h1 h2 => Mem.read_writeWord_outside m i v x (by omega)

theorem Mem.wf_writeWord {m : Mem} (h : m.wf) (i : Nat) (v : Word) : (m.writeWord i v).wf := Mem.wf_writeLE 8 h _ _

/-! ### Lists of words -/

theorem Mem.read_writeWords_outside (ws : List Word) : ∀ (m : Mem) (w x : Nat), x < 8 * w ∨ 8 * (w + ws.length) ≤ x →
    (m.writeWords w ws).read x = m.read x := by
  induction ws with
  | nil => intro m w x _; rfl
  | cons v vs ih =>
    intro m w x h
    simp only [List.length_cons] at h
    rw [Mem.writeWords, ih _ _ _ (by omega), Mem.read_writeWord_outside _ _ _ _ (by omega)]

theorem Mem.readWord_writeWords (ws : List Word) : ∀ (m : Mem) (w j : Nat), j < ws.length →
    (m.writeWords w ws).readWord (w + j) = ws[j]? := by
  induction ws with
  | nil => intro m w j h; simp at h
  | cons v vs ih =>
    intro m w j h
    cases j with
    | zero =>
      rw [Mem.writeWords, Mem.readWord_congr (m' := m.writeWord w v)]
      · simp [Mem.readWord_writeWord]
      · intro x h1 h2; exact Mem.read_writeWords_outside _ _ _ _ (by omega)
    | succ j =>
      have := ih (m.writeWord w v) (w + 1) j (by simpa using h)
      simpa [Mem.writeWords, Nat.add_assoc, Nat.add_comm 1 j] using this

theorem Mem.readWord_writeWords_outside (m : Mem) (w i : Nat) (ws : List Word) (h : i < w ∨ w + ws.length ≤ i) :
    (m.writeWords w ws).readWord i = m.readWord i :=
  Mem.readWord_congr i fun x h1 h2 => Mem.read_writeWords_outside ws m w x (by omega)

theorem Mem.wf_writeWords (ws : List Word) : ∀ {m : Mem}, m.wf → ∀ w, (m.writeWords w ws).wf := by
  induction ws with
  | nil => intro m h w; exact h
  | cons v vs ih => intro m h w; exact ih (Mem.wf_writeWord h _ _) _

theorem Mem.wf_writeAll (l : List (Nat × List Word)) : ∀ {m : Mem}, m.wf → (m.writeAll l).wf := by
  induction l with
  | nil => intro m h; exact h
  | cons c l ih => intro m h; exact ih (Mem.wf_writeWords _ h _)

@[simp] theorem Mem.writeAll_nil (m : Mem) : m.writeAll [] = m := rfl

@[simp] theorem Mem.writeAll_singleton (m : Mem) (w : Nat) (ws : List Word) : m.writeAll [(w, ws)] = m.writeWords w ws := rfl

/-- What `MemRead` answers: as many words as asked for, each a written word. -/
theorem Mem.readWords_spec (m : Mem) (n : Nat) : ∀ (w : Nat) (vs : List Word), m.readWords w n = some vs →
    vs.length = n ∧ ∀ j, j < n → m.readWord (w + j) = vs[j]? := by
  induction n with
  | zero => intro w vs h; simp only [Mem.readWords, Option.some.injEq] at h; subst h; simp
  | succ n ih =>
    intro w vs h
    simp only [Mem.readWords] at h
    cases hw : m.readWord w with
    | none => simp [hw] at h
    | some v =>
      simp only [hw, Option.map_eq_some_iff] at h
      obtain ⟨us, hu, rfl⟩ := h
      obtain ⟨h1, h2⟩ := ih _ _ hu
      refine ⟨by simp [h1], fun j hj => ?_⟩
      cases j with
      | zero => simpa using hw
      | succ j => simpa [Nat.add_assoc, Nat.add_comm 1 j] using h2 j (by omega)

theorem Mem.readWords_isSome_iff (m : Mem) (n : Nat) : ∀ w,
    (m.readWords w n).isSome ↔ ∀ j, j < n → (m.readWord (w + j)).isSome := by
  induction n with
  | zero => intro w; simp [Mem.readWords]
  | succ n ih =>
    intro w
    simp only [Mem.readWords]
    cases hw : m.readWord w with
    | none =>
      simp only [Option.isSome_none, Bool.false_eq_true, false_iff]
      intro h; simpa [hw] using h 0 (by omega)
    | some v =>
      simp only [Option.isSome_map, ih]
      constructor
      · intro h j hj
        cases j with
        | zero => simp [hw]
        | succ j => simpa [Nat.add_assoc, Nat.add_comm 1 j] using h j (by omega)
      · intro h j hj; simpa [Nat.add_assoc, Nat.add_comm 1 j] using h (j + 1) (by omega)

/-- Two windows written one after the other are one window. -/
theorem Mem.writeWords_append (xs ys : List Word) : ∀ (m : Mem) (w : Nat),
    m.writeWords w (xs ++ ys) = (m.writeWords w xs).writeWords (w + xs.length) ys := by
  induction xs with
  | nil => exact fun m w => rfl
  | cons x xs ih =>
    intro m w
    simp only [List.cons_append, Mem.writeWords, ih, List.length_cons]
    rw [show w + 1 + xs.length = w + (xs.length + 1) by omega]

/-- Writing a word inside `0 .. W-1` keeps memory made of whole words inside `0 .. W-1`. -/
theorem Mem.whole_writeWord {W : Nat} {m : Mem} (h : ∀ a, (m.read a).isSome → a / 8 < W ∧ (m.readWord (a / 8)).isSome)
    {i : Nat} (hi : i < W) (v : Word) :
    ∀ a, ((m.writeWord i v).read a).isSome → a / 8 < W ∧ ((m.writeWord i v).readWord (a / 8)).isSome := by
  intro a ha
  by_cases hd : a / 8 = i
  · rw [hd, Mem.readWord_writeWord]
    exact ⟨hi, rfl⟩
  · rw [Mem.read_writeWord_outside _ _ _ _ (by omega)] at ha
    rw [Mem.readWord_writeWord_other _ _ _ _ hd]
    exact h a ha

theorem Mem.whole_writeWords {W : Nat} (ws : List Word) : ∀ {m : Mem} {i : Nat},
    (∀ a, (m.read a).isSome → a / 8 < W ∧ (m.readWord (a / 8)).isSome) → i + ws.length ≤ W →
    ∀ a, ((m.writeWords i ws).read a).isSome → a / 8 < W ∧ ((m.writeWords i ws).readWord (a / 8)).isSome := by
  induction ws with
  | nil => exact fun h _ => h
  | cons v vs ih =>
    intro m i h hi
    rw [List.length_cons] at hi
    exact ih (Mem.whole_writeWord h (by omega) v) (by omega)

end Sys2Proof.Machine
end

