-- ==== Sys2Proof/Laws/PerInstr.lean ====
section
/-! SUPPORT. A law about the encoding of every command, one lemma per constructor of `Instr`. -/

namespace Sys2Proof.Laws.EncodeFields

open Sys2Proof

/-- The word of a well-formed command holds its opcode in bits 7:0, zero in bits 15:8, and SRC, DST and LEN above them, and no other
opcode reads it (30_encoding.md R130, R138, R143). -/
def Statement (i : Instr) : Prop :=
  i.WellFormed →
    opField (encode i) = i.op ∧ rsvField (encode i) = 0 ∧ srcField (encode i) = i.src ∧ dstField (encode i) = i.dst ∧
      lenField (encode i) = i.len ∧ ∀ j : Instr, decode (encode i) = .cmd j → j.op = i.op

theorem of_fields (i : Instr) : Statement i := fun h => by
  obtain ⟨h1, h2, h3, h4, h5⟩ := fields_encode h
  exact ⟨h1, h2, h3, h4, h5, fun j hj => (decode_eq_cmd_iff.1 hj).2.1.trans h1⟩

theorem lpc (src dst len : Nat) : Statement (.lpc src dst len) := of_fields _
theorem reson (src dst len : Nat) : Statement (.reson src dst len) := of_fields _
theorem pconv (src dst len : Nat) : Statement (.pconv src dst len) := of_fields _
theorem yin (src dst len : Nat) : Statement (.yin src dst len) := of_fields _
theorem noise (src dst len : Nat) : Statement (.noise src dst len) := of_fields _
theorem noisec (src dst len : Nat) : Statement (.noisec src dst len) := of_fields _

end Sys2Proof.Laws.EncodeFields
end

