-- ==== Sys2Proof/Laws/Step.lean ====
section
/-! SUPPORT. Everything a completion and a step can do, said once. -/

namespace Sys2Proof.Machine

open Sys2Proof

/-- The effect record each command computes (60_exceptions.md R242); `none` when it reads an unwritten word. -/
def effectOf (i : Instr) (s : State) : Option Effect :=
  match i with
  | .lpc src dst n => lpcEffect src dst n s
  | .reson _ dst _ => resonEffect dst s
  | .pconv src dst lp => pconvEffect src dst lp s
  | .yin src dst n => yinEffect src dst n s
  | .noise _ dst n => gaussEffect dst n (argU32 s.lat.arg.arg0)
  | .noisec _ dst n => gaussEffect dst n s.lat.prng

theorem exec_eq (i : Instr) (s : State) : exec i s = checkAndComplete i s (effectOf i s) := by cases i <;> rfl

/-- The one successful path of a command. -/
theorem exec_of_checks {i : Instr} {s : State} {e : Effect} (ha : argumentInvalid i s.lat = false)
    (hr : rangeInvalid s.dmemWords i s.lat = false) (he : effectOf i s = some e) : exec i s = .next (s.completeOk e) := by
  simp [exec_eq, checkAndComplete, ha, hr, he]

/-- The three ways a command ends in a next state (60_exceptions.md R243). -/
theorem exec_next {i : Instr} {s t : State} (h : exec i s = .next t) :
    (argumentInvalid i s.lat = true ∧ t = s.completeError .argument) ∨
      (argumentInvalid i s.lat = false ∧ rangeInvalid s.dmemWords i s.lat = true ∧ t = s.completeError .range) ∨
      (argumentInvalid i s.lat = false ∧ rangeInvalid s.dmemWords i s.lat = false ∧
        ∃ e, effectOf i s = some e ∧ t = s.completeOk e) := by
  rw [exec_eq] at h
  unfold checkAndComplete at h
  split at h
  · exact .inl ⟨‹_›, (Host.Outcome.next.inj h).symm⟩
  · rename_i h1
    split at h
    · exact .inr (.inl ⟨by simpa using h1, ‹_›, (Host.Outcome.next.inj h).symm⟩)
    · rename_i h2
      split at h
      · cases h
      · exact .inr (.inr ⟨by simpa using h1, by simpa using h2, _, ‹_›, (Host.Outcome.next.inj h).symm⟩)

/-- What a successful completion that writes one window leaves. -/
theorem completedOk_window (s : State) (dst : Nat) (ws : List Word) (r0 r1 : Nat) (v : Bool) (p : Option U32) :
    State.CompletedOk s (s.completeOk { writes := [(dst, ws)], r0 := r0, r1 := r1, voiced := v, prng := p }) dst ws r0 r1 v
      (p.getD s.prng) where
  stored j hj := by simp [Mem.readWord_writeWords _ _ _ _ hj]
  kept a ha := by simp [Mem.read_writeWords_outside _ _ _ _ ha]
  changed := rfl

/-- The only stop of a command (20_memory.md R115). -/
theorem exec_fault_iff {i : Instr} {s : State} {f : Fault} :
    exec i s = .fault f ↔ f = .uninit ∧ argumentInvalid i s.lat = false ∧ rangeInvalid s.dmemWords i s.lat = false ∧ effectOf i s = none := by
  rw [exec_eq]
  unfold checkAndComplete
  cases argumentInvalid i s.lat <;> cases rangeInvalid s.dmemWords i s.lat <;> cases effectOf i s <;> cases f <;> simp

theorem exec_ne_refused (i : Instr) (s : State) (r : Refusal) : exec i s ≠ .refused r := by
  rw [exec_eq]
  unfold checkAndComplete
  cases argumentInvalid i s.lat <;> cases rangeInvalid s.dmemWords i s.lat <;> cases effectOf i s <;> simp

/-- What every effect looks like (60_exceptions.md R242): one window, whose length RESULT0 gives and which RANGE has found inside
DMEM, or no word and RESULT0 = 0; a voiced one wrote one word. -/
theorem effectOf_shape {i : Instr} {s : State} {e : Effect} (ha : argumentInvalid i s.lat = false)
    (hr : rangeInvalid s.dmemWords i s.lat = false) (he : effectOf i s = some e) :
    ((∃ ws, e.writes = [(i.dst, ws)] ∧ e.r0 = ws.length ∧ i.dst + ws.length ≤ s.dmemWords) ∨ (e.writes = [] ∧ e.r0 = 0)) ∧
      (e.voiced = true → e.r0 = 1) := by
  cases i with
  | lpc src dst n =>
    simp only [effectOf, lpcEffect, Option.map_eq_some_iff] at he
    obtain ⟨x, -, rfl⟩ := he
    simp only [rangeInvalid, Bool.or_eq_false_iff, decide_eq_false_iff_not] at hr
    exact ⟨.inl ⟨_, rfl, by simp, by simp only [length_burg, Instr.dst]; omega⟩, by simp⟩
  | reson src dst n =>
    simp only [effectOf, resonEffect, Option.some.injEq] at he
    subst he
    simp only [rangeInvalid, decide_eq_false_iff_not] at hr
    exact ⟨.inl ⟨_, rfl, by simp, by simp only [length_resonance, Instr.dst]; omega⟩, by simp⟩
  | pconv src dst lp =>
    simp only [effectOf, pconvEffect] at he
    split at he
    · cases he
    · rename_i p hp
      simp only [Option.map_eq_some_iff] at he
      obtain ⟨q, hq, rfl⟩ := he
      have h1 := (Mem.readWords_spec _ _ _ _ hp).1
      have h2 := (Mem.readWords_spec _ _ _ _ hq).1
      simp only [rangeInvalid, Bool.or_eq_false_iff, decide_eq_false_iff_not] at hr
      simp only [argumentInvalid, Bool.or_eq_false_iff, beq_eq_false_iff_ne] at ha
      exact ⟨.inl ⟨_, rfl, by simp only [length_conv]; omega, by simp only [length_conv, Instr.dst]; omega⟩, by simp⟩
  | yin src dst n =>
    simp only [effectOf, yinEffect, Option.map_eq_some_iff] at he
    obtain ⟨fr, -, rfl⟩ := he
    simp only [rangeInvalid, Bool.or_eq_false_iff, decide_eq_false_iff_not] at hr
    cases yinEstimate fr (argF64 s.lat.arg.arg0) (argF64 s.lat.arg.arg1) (argF64 s.lat.arg.arg2) (argF64 s.lat.arg.arg3) with
    | none => exact ⟨.inr ⟨rfl, rfl⟩, by simp [yinResult]⟩
    | some r => exact ⟨.inl ⟨[r.2], rfl, rfl, by simp only [List.length_singleton, Instr.dst]; omega⟩, by simp [yinResult]⟩
  | noise src dst n =>
    simp only [effectOf, gaussEffect, Option.some.injEq] at he
    subst he
    simp only [rangeInvalid, decide_eq_false_iff_not] at hr
    exact ⟨.inl ⟨_, rfl, by simp, by simp only [length_gauss, Instr.dst]; omega⟩, by simp⟩
  | noisec src dst n =>
    simp only [effectOf, gaussEffect, Option.some.injEq] at he
    subst he
    simp only [rangeInvalid, decide_eq_false_iff_not] at hr
    exact ⟨.inl ⟨_, rfl, by simp, by simp only [length_gauss, Instr.dst]; omega⟩, by simp⟩

/-- Every way a completion ends in a next state (60_exceptions.md R242, R243, R247). -/
theorem complete_next {s t : State} (h : complete s = .next t) :
    (∃ c, c ≠ .ok ∧ t = s.completeError c) ∨
      ∃ i e, decode s.lat.cmd = .cmd i ∧ argumentInvalid i s.lat = false ∧ rangeInvalid s.dmemWords i s.lat = false ∧
        effectOf i s = some e ∧ t = s.completeOk e := by
  unfold complete at h
  split at h
  · exact .inl ⟨.opcode, by simp, (Host.Outcome.next.inj h).symm⟩
  · exact .inl ⟨.reserved, by simp, (Host.Outcome.next.inj h).symm⟩
  · rcases exec_next h with ⟨-, rfl⟩ | ⟨-, -, rfl⟩ | ⟨h1, h2, e, h3, rfl⟩
    · exact .inl ⟨.argument, by simp, rfl⟩
    · exact .inl ⟨.range, by simp, rfl⟩
    · exact .inr ⟨_, e, ‹_›, h1, h2, h3, rfl⟩

/-- Whether the next step is the core's (20_memory.md R109; log entries 6 and 7), and on which state. -/
def CoreMoves (s u : State) : Prop := (s.schedule = [] ∧ u = s) ∨ ∃ rest, s.schedule = .coreTurn :: rest ∧ u = { s with schedule := rest }

/-- The core's turn changes nothing but the schedule before it completes anything. -/
theorem CoreMoves.frame {s u : State} (h : CoreMoves s u) :
    u = { s with schedule := u.schedule } ∧ (s.schedule = [] ∨ ∃ rest, s.schedule = .coreTurn :: rest) := by
  rcases h with ⟨h, rfl⟩ | ⟨rest, h, rfl⟩
  · exact ⟨rfl, .inl h⟩
  · exact ⟨rfl, .inr ⟨rest, h⟩⟩

/-- Every way a step ends in a next state: an idle turn, a completion, a host read, a host write, or the reset input. -/
theorem step_next {s t : State} (h : step s = .next t) :
    (∃ u, CoreMoves s u ∧ s.busy = false ∧ t = u) ∨ (∃ u, CoreMoves s u ∧ s.busy = true ∧ complete u = .next t) ∨
      (∃ size off rest, s.schedule = .hread size off :: rest ∧ ∃ r, t = ({ s with schedule := rest } : State).answer r) ∨
      (∃ size off v rest, s.schedule = .hwrite size off v :: rest ∧ hwrite { s with schedule := rest } size off v = .next t) ∨
      (∃ rest, s.schedule = .rst :: rest ∧ t = ({ s with schedule := rest } : State).applyReset) := by
  unfold step at h
  split at h
  · rename_i hs
    unfold coreTurn at h
    split at h
    · exact .inr (.inl ⟨s, .inl ⟨hs, rfl⟩, ‹_›, h⟩)
    · rename_i hb
      exact .inl ⟨s, .inl ⟨hs, rfl⟩, by simpa using hb, (Host.Outcome.next.inj h).symm⟩
  · rename_i e rest hs
    cases e with
    | hread size off => exact .inr (.inr (.inl ⟨size, off, rest, hs, hread_next h⟩))
    | hwrite size off v => exact .inr (.inr (.inr (.inl ⟨size, off, v, rest, hs, h⟩)))
    | coreTurn =>
      simp only [handle, coreTurn] at h
      split at h
      · exact .inr (.inl ⟨_, .inr ⟨rest, hs, rfl⟩, ‹_›, h⟩)
      · rename_i hb
        exact .inl ⟨_, .inr ⟨rest, hs, rfl⟩, by simpa using hb, (Host.Outcome.next.inj h).symm⟩
    | rst => exact .inr (.inr (.inr (.inr ⟨rest, hs, (Host.Outcome.next.inj h).symm⟩)))

end Sys2Proof.Machine
end

