-- ==== Sys2Proof/Tests/Slice0.lean ====
section
/-! SUPPORT. Tests. Expected results come from the spec's vectors (95_test_vectors.md, the vector named in each comment) or from hand
calculation by the rule named. The theorems `test_witness_<statement>` show states and operands that meet the hypotheses of the
statement of that name, each clause at boundary values. -/

namespace Sys2Proof.Tests

-- one theorem at a time, which keeps the memory of the evaluations low
set_option Elab.async false

open Sys2Proof Sys2Proof.Machine

/-! ### Helpers -/

/-- DMEM with `ws` written from word `base` up, and nothing else. -/
def mem (base : Nat) (ws : List Word) : Mem := Mem.writeWords [] base ws

/-- A block whose DMEM holds `ws` from word `base` up, idle, its ARG registers `a`. -/
def idle (a : Args) (base : Nat) (ws : List Word) : State := { State.reset with dmem := mem base ws, arg := a }

/-- The same block with the command word `w` accepted. -/
def running (w : Word) (a : Args) (base : Nat) (ws : List Word) : State := (idle a base ws).accept w

/-- Whether an outcome is a next state that satisfies `P`. -/
def ends (o : Host.Outcome State Fault Refusal) (P : State → Bool) : Bool :=
  match o with
  | .next t => P t
  | .fault _ => false
  | .refused _ => false

/-- Whether an outcome is the UNINIT fault. -/
def stops (o : Host.Outcome State Fault Refusal) : Bool :=
  match o with
  | .next _ => false
  | .fault .uninit => true
  | .refused _ => false

theorem exists_next {o : Host.Outcome State Fault Refusal} {P : State → Bool} (h : ends o P = true) :
    ∃ t, o = .next t ∧ P t = true := by
  cases o with
  | next t => exact ⟨t, rfl, h⟩
  | fault e => cases h
  | refused r => cases h

theorem eq_fault {o : Host.Outcome State Fault Refusal} (h : stops o = true) : o = .fault .uninit := by
  cases o with
  | next t => cases h
  | fault e => cases e; rfl
  | refused r => cases h

/-- `1.0`, `2.0`, `3.0`, `4.0`. -/
def ramp : List Word := [0x3FF0000000000000#64, 0x4000000000000000#64, 0x4008000000000000#64, 0x4010000000000000#64]

/-- The frame of vector Y1: `[1, -1]` four times. -/
def square : List Word :=
  [0x3FF0000000000000#64, 0xBFF0000000000000#64, 0x3FF0000000000000#64, 0xBFF0000000000000#64,
    0x3FF0000000000000#64, 0xBFF0000000000000#64, 0x3FF0000000000000#64, 0xBFF0000000000000#64]

/-- The ARG registers of vector Y1: `sr = 8`, `fmin = 1`, `fmax = 8`, `thr = 0.15`. -/
def y1Args : Args := ⟨0x4020000000000000#64, 0x3FF0000000000000#64, 0x4020000000000000#64, 0x3FC3333333333333#64⟩

/-- Four ARG registers, the first two given. -/
def args2 (a b : Word) : Args := ⟨a, b, 0#64, 0#64⟩

/-- ARG0..ARG2 of vector R1, with the rate given. -/
def resArgs (rate : Word) : Args := ⟨0x407F400000000000#64, 0x4054000000000000#64, rate, 0#64⟩

/-! ### Well-formedness and encoding (30_encoding.md R130, R138, R143) -/

theorem test_wellFormed_smoke :
    (Instr.lpc 65535 65535 65535).WellFormed ∧ ¬ (Instr.lpc 65536 0 0).WellFormed ∧ ¬ (Instr.lpc 0 65536 0).WellFormed ∧
      ¬ (Instr.lpc 0 0 65536).WellFormed := by decide

theorem test_wellFormed_each_family :
    ¬ (Instr.reson 65536 0 0).WellFormed ∧ ¬ (Instr.pconv 0 65536 0).WellFormed ∧ ¬ (Instr.yin 0 0 65536).WellFormed ∧
      ¬ (Instr.noise 65536 0 0).WellFormed ∧ ¬ (Instr.noisec 0 65536 0).WellFormed := by decide

/-! The words below are written out as R130 lays them out: LEN, DST, SRC, RSV, OP, most significant first. -/

theorem test_decode_lpc : decode (256#16 ++ 0x100#16 ++ 0#16 ++ 0x00#8 ++ 0x01#8) = .cmd (.lpc 0 0x100 256) := by decide
theorem test_decode_reson : decode (0xFFFF#16 ++ 3#16 ++ 0xFFFF#16 ++ 0x00#8 ++ 0x02#8) = .cmd (.reson 0xFFFF 3 0xFFFF) := by decide
theorem test_decode_pconv : decode (3#16 ++ 8#16 ++ 0x8001#16 ++ 0x00#8 ++ 0x03#8) = .cmd (.pconv 0x8001 8 3) := by decide
theorem test_decode_yin : decode (8#16 ++ 9#16 ++ 10#16 ++ 0x00#8 ++ 0x04#8) = .cmd (.yin 10 9 8) := by decide
theorem test_decode_noise : decode (1#16 ++ 2#16 ++ 4#16 ++ 0x00#8 ++ 0x05#8) = .cmd (.noise 4 2 1) := by decide
theorem test_decode_noisec : decode (0x8000#16 ++ 0x4000#16 ++ 0x2000#16 ++ 0x00#8 ++ 0x06#8) = .cmd (.noisec 0x2000 0x4000 0x8000) := by
  decide

/-- §2.0: OP 0x00, 0x07 and 0xFF are illegal, with RSV looked at second; RSV 0x01 and 0xFF are reserved. -/
theorem test_decode_rejects :
    decode 0x00000000000000FF#64 = .illegal ∧ decode 0x0000000000000107#64 = .illegal ∧ decode 0#64 = .illegal ∧
      decode 0xFFFFFFFFFFFF0106#64 = .reserved ∧ decode 0x000000000000FF01#64 = .reserved := by decide

/-- §2.0, P1, P2, P3: the encoder's words. -/
theorem test_encode_words :
    encode (.lpc 0 16 4) = 0x0004001000000001#64 ∧ encode (.pconv 0 8 3) = 0x0003000800000003#64 ∧
      encode (.yin 0 8 8) = 0x0008000800000004#64 ∧ encode (.noisec 0 1 1) = 0x0001000100000006#64 := by decide

theorem test_decodeTableWord :
    decodeTableWord 64 0x0004001000000001 = some (.lpc 0 16 4) ∧ decodeTableWord 64 0x106 = none ∧
      decodeTableWord 8 0x105 = some (.noise 0 0 0) := by decide

/-! ### The commands, one step each -/

/-- Vector L3 (program P1): both stages run. -/
theorem test_lpc_L3 :
    ends (step (running 0x0004001000000001#64 (args2 2 0) 0 ramp)) (fun t =>
      t.dmem.readWord 16 == some 0x3FF0000000000000#64 && t.dmem.readWord 17 == some 0xBFFC65179D4D3B00#64 &&
      t.dmem.readWord 18 == some 0x3FED0C8C5EFFA541#64 && t.result0 == 3 && t.result1 == 2 && t.status == 2) = true := by
  decide +kernel

/-- Vector LE6: the sum `DST + order + 1` does not wrap. -/
theorem test_lpc_LE6 :
    ends (step (running 0x0004001000000001#64 (args2 0xFFFFFFFFFFFFFFFF#64 0) 0 ramp)) (fun t =>
      t.status == 0x406 && t.result0 == 0 && t.dmem == mem 0 ramp) = true := by decide +kernel

/-- Vectors R1 and RE6: coefficient 0 is `1.0` and RESULT0 is 3, in the last three words. -/
theorem test_reson_RE6 :
    ends (step (running 0x00000FFD00000002#64 (resArgs 0x40BF400000000000#64) 0 [])) (fun t =>
      t.dmem.readWord 4093 == some 0x3FF0000000000000#64 && t.result0 == 3 && t.result1 == 0 && t.status == 2) = true := by
  decide +kernel

/-- Vector R1: the pole angle, and vector RE3: an infinite rate. -/
theorem test_reson_theta_RE3 :
    poleAngle 0x407F400000000000#64 0x40CF400000000000#64 = 0x3FC921FB54442D18#64 ∧
      ends (step (running 0x0000000000000002#64 (resArgs 0x7FF0000000000000#64) 0 [])) (fun t =>
        t.status == 0x306 && t.dmem == []) = true := by decide +kernel

/-- Vector C7: the inputs are read before any output is written over them. -/
theorem test_pconv_C7 :
    ends (step (running 0x0002000000000003#64 (args2 0 2) 0 [0x3FF0000000000000#64, 0x4000000000000000#64])) (fun t =>
      t.dmem.readWord 0 == some 0x3FF0000000000000#64 && t.dmem.readWord 1 == some 0x4010000000000000#64 &&
      t.dmem.readWord 2 == some 0x4010000000000000#64 && t.result0 == 3) = true := by decide +kernel

/-- Vector C5. -/
theorem test_pconv_C5 :
    conv [0x3FF0000000000000#64, 0x4000000000000000#64, 0x4008000000000000#64] [0x4010000000000000#64, 0x4014000000000000#64] =
      [0x4010000000000000#64, 0x402A000000000000#64, 0x4036000000000000#64, 0x402E000000000000#64] := by decide +kernel

/-- Vector Y1 (program P3): voiced, with VOICED, RESULT1 = 2 and the pitch. -/
theorem test_yin_Y1 :
    ends (step (running 0x0008000800000004#64 y1Args 0 square)) (fun t =>
      t.dmem.readWord 8 == some 0x4010750750750751#64 && t.result0 == 1 && t.result1 == 2 && t.status == 0x12) = true := by
  decide +kernel

/-- Vector YE8: a threshold of -1 is not checked; the frame is unvoiced and DMEM is unchanged. -/
theorem test_yin_YE8 :
    ends (step (running 0x0008000800000004#64 { y1Args with arg3 := 0xBFF0000000000000#64 } 0 square)) (fun t =>
      t.dmem == mem 0 square && t.result0 == 0 && t.result1 == 0 && t.status == 2) = true := by decide +kernel

/-- Vectors N1 and N6: seed bits 63:32 are ignored, and the generator's final state goes to PRNG_STATE. -/
theorem test_noise_N6 :
    ends (step (running 0x0003000000000005#64 (args2 0x100000000#64 0) 0 [])) (fun t =>
      t.prng == 0x9F2EC686#32 && t.result0 == 3 && t.result1 == 0 && t.status == 2) = true := by decide +kernel

/-- Vector NE2: a range error leaves PRNG_STATE. -/
theorem test_noise_NE2 :
    ends (step { running 0x00610FA000000005#64 (args2 0 0) 0 [] with prng := 7#32 }) (fun t =>
      t.prng == 7#32 && t.status == 0x406 && t.dmem == []) = true := by decide +kernel

/-- Vector NC1's final state: NOISEC starts from the state latched at acceptance. -/
theorem test_noisec_NC1 :
    ends (step (({ State.reset with prng := 0x47502932#32 } : State).accept 0x0001000100000006#64)) (fun t =>
      t.prng == 0xAAF95334#32 && t.result0 == 1 && t.status == 2) = true := by decide +kernel

/-- Vector NE4, from a state whose ERR and DONE were set before. -/
theorem test_noisec_NE4 :
    ends (step (running 0x0000000000000006#64 (args2 0 0) 0 [])) (fun t => t.status == 0x306 && t.prng == 0) = true := by
  decide +kernel

/-! ### The kernels on the spec's vectors -/

/-- Vectors L5 (order above n), L6 (energy test), L7 (a NaN does not stop it) and L9 (negative zero). -/
theorem test_burg_L5_L6_L7_L9 :
    burg [0x3FF0000000000000#64, 0xBFF0000000000000#64] 3 = ([0x3FF0000000000000#64, 0x3FF0000000000000#64, 0#64, 0#64], 1) ∧
      burg (List.replicate 4 0x3FF0000000000000#64) 2 = ([0x3FF0000000000000#64, 0xBFF0000000000000#64, 0#64], 1) ∧
      burg [0x3FF0000000000000#64, 0x7FF8000000000000#64, 0#64] 2 =
        ([0x3FF0000000000000#64, 0x7FF8000000000000#64, 0x7FF8000000000000#64], 2) ∧
      burg [0x3FF0000000000000#64, 0#64, 0#64, 0#64] 2 = ([0x3FF0000000000000#64, 0x8000000000000000#64, 0#64], 1) := by
  decide +kernel

/-- Vector C3: a sum that has only the term `-0.0` is `+0.0`. -/
theorem test_conv_C3 : conv [0x8000000000000000#64] [0x3FF0000000000000#64] = [0#64] := by decide +kernel

/-- `cmnd[0..7]` of vector Y1: `[1, 1, 0, 1.25, 0, 1, 0, 0.4375]`. -/
theorem test_cmnd_Y1 :
    yinCmnd (yinDiffs square 7) =
      [0x3FF0000000000000#64, 0x3FF0000000000000#64, 0#64, 0x3FF4000000000000#64, 0#64, 0x3FF0000000000000#64, 0#64,
        0x3FDC000000000000#64] := by decide +kernel

/-- Bounds of vectors Y2, Y8, Y10 and Y11. -/
theorem test_yinBounds :
    yinBounds 0x4030000000000000#64 0x3FF0000000000000#64 0x4020000000000000#64 16 = (some 2, 15) ∧
      yinBounds 0x4020000000000000#64 0x3FF0000000000000#64 0x4010000000000000#64 1 = (some 2, 0) ∧
      yinBounds 0x4030000000000000#64 0x3FF0000000000000#64 0x7FF0000000000000#64 16 = (some 1, 15) ∧
      yinBounds 0x7E37E43C8800759C#64 0x01A56E1FC2F8F359#64 0x7E37E43C8800759C#64 16 = (some 1, 15) := by decide +kernel

/-- The LCG trace of vector N1. -/
theorem test_lcg_trace :
    lcg 0#32 = 0x3C6EF35F#32 ∧ lcg 0x3C6EF35F#32 = 0x47502932#32 ∧ lcg 0x26F5B720#32 = 0xFFFFFFFF#32 ∧
      uniform 0x3C6EF35F#32 = 0x3FCE3779B0000000#64 ∧ uniform 0x9F2EC686#32 = 0x3FE3E5D8D0E00000#64 ∧
      uniform 0#32 = 0x3DF0000000000000#64 ∧ uniform 0xFFFFFFFF#32 = 0x3FF0000000000000#64 := by decide +kernel

/-! ### Arithmetic, by hand calculation from 00_scope.md R14-R22 -/

/-- Ties go to even: `1 + 2^-53` is 1, `(1 + 2^-52) + 2^-53` is `1 + 2^-51`; the least subnormal is kept; the greatest value plus half
its quantum overflows. -/
theorem test_fadd_rounding :
    fadd 0x3FF0000000000000#64 0x3CA0000000000000#64 = 0x3FF0000000000000#64 ∧
      fadd 0x3FF0000000000001#64 0x3CA0000000000000#64 = 0x3FF0000000000002#64 ∧
      fadd 0x0010000000000000#64 0x8010000000000001#64 = 0x8000000000000001#64 ∧
      fadd 0x7FEFFFFFFFFFFFFF#64 0x7C90000000000000#64 = 0x7FF0000000000000#64 := by decide +kernel

/-- `x - x` is `+0.0`, `-0.0 + -0.0` is `-0.0`, and `∞ - ∞` is the canonical NaN. -/
theorem test_fadd_zeros :
    fsub 0xC000000000000000#64 0xC000000000000000#64 = 0#64 ∧ fadd 0x8000000000000000#64 0x8000000000000000#64 = 0x8000000000000000#64 ∧
      fsub 0x7FF0000000000000#64 0x7FF0000000000000#64 = 0x7FF8000000000000#64 := by decide +kernel

/-- `0 * ∞` is a NaN; half the least subnormal rounds to zero with its sign; a product of `-2` and `0` is `-0.0`. -/
theorem test_fmul_corners :
    fmul 0#64 0x7FF0000000000000#64 = 0x7FF8000000000000#64 ∧ fmul 0x8000000000000001#64 0x3FE0000000000000#64 = 0x8000000000000000#64 ∧
      fmul 0xC000000000000000#64 0#64 = 0x8000000000000000#64 := by decide +kernel

/-- One third, one over negative zero, zero over zero, and a subnormal quotient. -/
theorem test_fdiv_corners :
    fdiv 0x3FF0000000000000#64 0x4008000000000000#64 = 0x3FD5555555555555#64 ∧
      fdiv 0x3FF0000000000000#64 0x8000000000000000#64 = 0xFFF0000000000000#64 ∧ fdiv 0#64 0#64 = 0x7FF8000000000000#64 ∧
      fdiv 0x0010000000000000#64 0x4000000000000000#64 = 0x0008000000000000#64 := by decide +kernel

/-- `√2`, `√4`, `√-0.0` (vector N5), `√-1`. -/
theorem test_fsqrt :
    fsqrt 0x4000000000000000#64 = 0x3FF6A09E667F3BCD#64 ∧ fsqrt 0x4010000000000000#64 = 0x4000000000000000#64 ∧
      fsqrt 0x8000000000000000#64 = 0x8000000000000000#64 ∧ fsqrt 0xBFF0000000000000#64 = 0x7FF8000000000000#64 := by
  decide +kernel

/-- R15: the zeros are equal, a NaN is unordered and unequal to itself. -/
theorem test_comparisons :
    fne 0#64 0x8000000000000000#64 = false ∧ fle 0x8000000000000000#64 0#64 = true ∧ flt 0xFFF0000000000000#64 0#64 = true ∧
      fgt 0x7FF8000000000000#64 0#64 = false ∧ fne 0x7FF8000000000000#64 0x7FF8000000000000#64 = true := by decide +kernel

/-- R21 and R22: `toF(2^53 + 1)` ties to even; the floor of 2.5 is 2 and of `+∞` the symbol `∞`. -/
theorem test_toF_floorX :
    toF 9007199254740993 = 0x4340000000000000#64 ∧ toF 1000 = 0x408F400000000000#64 ∧ floorX 0x4004000000000000#64 = some 2 ∧
      floorX 0x7FF0000000000000#64 = none := by decide +kernel

/-- R18's constants beside the decimals they are nearest to. -/
theorem test_constants :
    decimalBits ⟨false, 1, -12⟩ = f64EpsDen ∧ decimalBits ⟨false, 3141592653589793, -15⟩ = f64Pi ∧
      decimalBits ⟨false, 4294967296, 0⟩ = f64Two32 ∧ decimalBits ⟨false, 15, -2⟩ = 0x3FC3333333333333#64 := by decide +kernel

/-! ### The host port (§2.7) -/

/-- Whether a read answers `data` with `resp`. -/
def reads (s : State) (size : Nat) (off : BitVec 20) (data : Word) (resp : Resp) : Bool :=
  ends (hread s size off) fun t => t.reply == some (.read data resp)

/-- H1 to H7. -/
theorem test_host_H1_H7 :
    (reads State.reset 8 0x00000#20 0x484D494300010000#64 .okay && reads State.reset 8 0x00008#20 0x0000000F00001000#64 .okay &&
      reads State.reset 8 0x00018#20 0#64 .okay && reads State.reset 8 0x00004#20 0#64 .error &&
      reads State.reset 4 0x00018#20 0#64 .error && reads State.reset 8 0x00060#20 0#64 .error &&
      reads State.reset 8 0x88000#20 0#64 .error) = true := by decide +kernel

/-- H8 and H9: the last word, unwritten and then written. -/
theorem test_host_H8_H9 :
    stops (hread State.reset 8 0x87FF8#20) = true ∧
      ends (hwrite State.reset 8 0x87FF8#20 0x3FF0000000000000#64) (fun t =>
        reads t 8 0x87FF8#20 0x3FF0000000000000#64 .okay && t.dmem.read 0x7FFF == some 0x3F#8) = true := by decide +kernel

/-- H10 to H12: ID ignores a write; PRNG_STATE takes bits 31:0; CTRL takes bit 0. -/
theorem test_host_H10_H12 :
    ends (hwrite State.reset 8 0x00000#20 0#64) (fun t => reads t 8 0x00000#20 0x484D494300010000#64 .okay) = true ∧
      ends (hwrite State.reset 8 0x00058#20 0xFFFFFFFF12345678#64) (fun t => reads t 8 0x00058#20 0x12345678#64 .okay) = true ∧
      ends (hwrite State.reset 8 0x00010#20 0xFFFFFFFFFFFFFFFF#64) (fun t => reads t 8 0x00010#20 1#64 .okay) = true := by
  decide +kernel

/-- H13 and H14: the interrupt line. -/
theorem test_host_H13_H14 :
    ends (hwrite { State.reset with done := true } 8 0x00010#20 1#64) (fun t => t.irq) = true ∧
      ends (hwrite { State.reset with done := true, err := true, ovr := true, ctrlIe := true } 8 0x00018#20 2#64) (fun t =>
        t.status == 0xC && !t.irq) = true := by decide +kernel

/-- H15 to H18, on a running LPC. -/
theorem test_host_H15_H18 :
    let s := running 0x0004001000000001#64 (args2 2 0) 0 ramp
    ends (hwrite s 8 0x00020#20 0x0004002000000001#64) (fun t => t.ovr && t.cmd == s.cmd && t.reply == some (.write .okay)) = true ∧
      reads s 8 0x80000#20 0#64 .error = true ∧ ends (hwrite s 8 0x80000#20 0#64) (fun t => t.reply == some (.write .error)) = true ∧
      ends (hwrite s 8 0x00058#20 5#64) (fun t => t.prng == 0 && t.reply == some (.write .error)) = true ∧
      ends (hwrite s 8 0x00028#20 9#64) (fun t => t.arg.arg0 == 9 && t.lat.arg.arg0 == 2 && reads t 8 0x00018#20 1#64 .okay) = true := by
  decide +kernel

/-- H19: reset while BUSY. -/
theorem test_host_H19 :
    ends (step { running 0x0004001000000001#64 (args2 2 0) 0 ramp with schedule := [.rst] }) (fun t => t == State.reset) = true := by
  decide +kernel

/-- E1 and E2, with the status E4 gives. -/
theorem test_priority_E1_E2 :
    ends (step (running 0x0000000000000107#64 (args2 0 0) 0 [])) (fun t => t.status == 0x106) = true ∧
      ends (step (running 0x0000001000000101#64 (args2 0 0) 0 [])) (fun t => t.status == 0x206) = true := by decide +kernel

/-- E5: ERR stays after a success. -/
theorem test_sticky_E5 :
    ends (step { running 0x0004001000000001#64 (args2 2 0) 0 ramp with err := true }) (fun t => t.status == 6) = true := by
  decide +kernel

/-- Program P5, completion after T2: T1 gets ERROR, T2 is dropped, the final STATUS is 0xA. -/
theorem test_schedule_P5 :
    ends (step { running 0x0004001000000001#64 (args2 1 0) 0 ramp with ovr := true, schedule := [.coreTurn] }) (fun t =>
      t.status == 0xA && t.dmem.readWord 17 == some 0xBFEDC47711DC4771#64 && t.dmem.readWord 32 == none &&
      t.schedule == []) = true := by decide +kernel

/-- The fetched word is accepted and completed by the very next step. -/
theorem test_withFetchWord :
    ends (step (State.reset.withFetchWord 64 0x0001000000000005)) (fun t =>
      t.prng == 0x47502932#32 && t.cmd == 0x0001000000000005#64 && t.status == 2 && t.schedule == []) = true := by decide +kernel

/-! ### Spellings (30_encoding.md R144-R146) -/

theorem test_assemble :
    assemble "LPC d=0x100, s=0, n=256".toList = some 0x0100010000000001#64 ∧ assemble "NOISEC n=1".toList = some 0x0001000000000006#64 ∧
      assemble "LPC d=65536".toList = none ∧ assemble "FFT d=0".toList = none := by decide +kernel

/-- A `_` is a separator in hex only (00_scope.md R8), between digits (log entry 12); `.word` takes hex (30_encoding.md R144). -/
theorem test_separators :
    parseNumber "0x4750_2932".toList = some 0x47502932 ∧ parseNumber "4_096".toList = none ∧ parseNumber "0x_1".toList = none ∧
      parseNumber "0x1_".toList = none ∧ parseNumber "_".toList = none ∧ parseNumber "0x".toList = none ∧
      assemble ".word 0x0000_0000_0000_0107".toList = some 0x107#64 ∧ assemble ".word 263".toList = none := by decide +kernel

/-- P3's `yin`, and `clear`. -/
theorem test_pseudo :
    pseudoEvents 0 (.yin 8 0 8 ⟨false, 8, 0⟩ ⟨false, 1, 0⟩ ⟨false, 8, 0⟩ ⟨false, 15, -2⟩) =
        [.hwrite 8 0x00028#20 0x4020000000000000#64, .hwrite 8 0x00030#20 0x3FF0000000000000#64,
          .hwrite 8 0x00038#20 0x4020000000000000#64, .hwrite 8 0x00040#20 0x3FC3333333333333#64,
          .hwrite 8 0x00020#20 0x0008000800000004#64] ∧
      pseudoEvents 2 .wait = [.hread 8 0x00018#20, .hread 8 0x00018#20] ∧ pseudoEvents 0 .clear = [.hwrite 8 0x00018#20 0xE#64] := by
  decide +kernel

/-- Lines of programs P1, P3 and P4 with their comments. -/
theorem test_script :
    scriptEvents 1 "write @1, f64(2.0)          ; 0x4000000000000000\nlpc 16, 0, 4, 2\nwait\n\nread RESULT0".toList =
        some [.hwrite 8 0x80008#20 0x4000000000000000#64, .hwrite 8 0x00028#20 2#64, .hwrite 8 0x00020#20 0x0004001000000001#64,
          .hread 8 0x00018#20, .hread 8 0x00048#20] ∧
      scriptEvents 0 "write CMD, cmd(NOISEC d=2, n=1)\nwrite PRNG_STATE, 0x4750_2932\nwrite ARG3, f64(-15e-2)".toList =
        some [.hwrite 8 0x00020#20 0x0001000200000006#64, .hwrite 8 0x00058#20 0x47502932#64,
          .hwrite 8 0x00040#20 0xBFC3333333333333#64] ∧
      scriptEvents 0 "read @65536".toList = none ∧ scriptEvents 0 "noise 0, 1".toList = none := by decide +kernel

/-! ### Witnesses: states and operands that meet the hypotheses of the statements -/

/-- The running LPC of vector L3. -/
def busyLpc : State := running 0x0004001000000001#64 (args2 2 0) 0 ramp

/-- The same with other inputs to come. -/
def busyThen (l : List Event) : State := { busyLpc with schedule := l }

/-- The same block idle, with inputs to come. -/
def idleThen (l : List Event) : State := { idle (args2 2 0) 0 ramp with schedule := l }

/-- A block of the least DMEM_WORDS, 64, with `ramp` in its last four words, LAT's ARG registers `a`. -/
def smallest (a : Args) : State :=
  { State.reset with dmem := mem 60 ramp, dmemWords := 64, busy := true, lat := { cmd := 0#64, arg := a, prng := 7#32 } }

theorem test_witness_DecodeOfEncodeIsTheCommand :
    (Instr.lpc 0 0 0).WellFormed ∧ (Instr.noisec 65535 65535 65535).WellFormed := by decide

theorem test_witness_EncodeOfDecodedIsTheWord :
    decode 0xFFFFFFFFFFFF0006#64 = .cmd (.noisec 65535 65535 65535) ∧ decode 0x0000000000000001#64 = .cmd (.lpc 0 0 0) := by decide

theorem test_witness_DecodeTakesOpcodeThenReserved :
    (BitVec.extractLsb' 0 8 (0x00#64)).toNat ∉ [1, 2, 3, 4, 5, 6] ∧ (BitVec.extractLsb' 0 8 (0x07#64)).toNat ∉ [1, 2, 3, 4, 5, 6] ∧
      ((BitVec.extractLsb' 0 8 (0x0106#64)).toNat ∈ [1, 2, 3, 4, 5, 6] ∧ BitVec.extractLsb' 8 8 (0x0106#64) ≠ 0#8) ∧
      ((BitVec.extractLsb' 0 8 (0x10001#64)).toNat ∈ [1, 2, 3, 4, 5, 6] ∧ BitVec.extractLsb' 8 8 (0x10001#64) = 0#8) := by decide

theorem test_witness_StepRunsDecodedCommand :
    busyLpc.busy = true ∧ decode busyLpc.lat.cmd = .cmd (.lpc 0 16 4) ∧ busyLpc.schedule = [] ∧
      (busyThen [.coreTurn, .rst]).busy = true ∧ (busyThen [.coreTurn, .rst]).schedule = .coreTurn :: [.rst] := by decide

theorem test_witness_StepTakesInputsInOrder :
    (idleThen [.hread 8 0x18#20]).schedule = .hread 8 0x18#20 :: [] ∧
      (busyThen [.hwrite 4 0x20#20 1#64, .rst]).schedule = .hwrite 4 0x20#20 1#64 :: [.rst] := by decide

theorem test_witness_MalformedWordsCompleteWithTheirCode :
    (0x20#20).toNat = 0x20 ∧ (idleThen []).busy = false ∧
      (let s := running 0x0107#64 (args2 0 0) 0 []
       s.busy = true ∧ s.lat.cmd = 0x0107#64 ∧ s.schedule = [] ∧ (BitVec.extractLsb' 0 8 (0x0107#64)).toNat ∉ [1, 2, 3, 4, 5, 6]) ∧
      (let s := { running 0x0106#64 (args2 0 0) 0 [] with schedule := [.coreTurn] }
       s.busy = true ∧ s.lat.cmd = 0x0106#64 ∧ s.schedule = .coreTurn :: [] ∧
         (BitVec.extractLsb' 0 8 (0x0106#64)).toNat ∈ [1, 2, 3, 4, 5, 6] ∧ BitVec.extractLsb' 8 8 (0x0106#64) ≠ 0#8) := by decide

theorem test_witness_IdleBlockChangesNothing :
    (idleThen []).busy = false ∧ (idleThen []).schedule = [] ∧ (idleThen [.coreTurn]).busy = false ∧
      (idleThen [.coreTurn]).schedule = .coreTurn :: [] := by decide

theorem test_witness_ResetInputAbandonsTheCommand : (busyThen [.rst, .coreTurn]).schedule = .rst :: [.coreTurn] := by decide

theorem test_witness_BusErrorChangesNothing :
    (∃ t, hread busyLpc 8 0x80000#20 = .next t ∧ (t.reply == some (.read 0#64 .error)) = true) ∧
      ∃ t, hwrite busyLpc 8 0x58#20 5#64 = .next t ∧ (t.reply == some (.write .error)) = true :=
  ⟨exists_next (by decide +kernel), exists_next (by decide +kernel)⟩

/-- Each cause of an ERROR response at a boundary, the offsets beside them that get OKAY, and the busy CMD write. -/
theorem test_witness_ErrorResponseExactlyWhen :
    (reads busyLpc 8 0x80000#20 0#64 .error && reads busyLpc 8 0x87FF8#20 0#64 .error && reads busyLpc 4 0x58#20 0#64 .error &&
      reads busyLpc 8 0x5C#20 0#64 .error && reads busyLpc 8 0x60#20 0#64 .error && reads busyLpc 8 0x7FFF8#20 0#64 .error &&
      reads busyLpc 8 0x88000#20 0#64 .error && reads busyLpc 8 0x58#20 0#64 .okay &&
      reads (idleThen []) 8 0x80000#20 0x3FF0000000000000#64 .okay) = true ∧
      ends (hwrite (idleThen []) 8 0x58#20 1#64) (fun t => t.reply == some (.write .okay)) = true ∧
      busyLpc.busy = true ∧ (0x20#20).toNat = 0x20 := by decide +kernel

theorem test_witness_HostReadsHaveNoSideEffect : ∃ t, hread (idleThen []) 8 0x80018#20 = .next t ∧ (t.busy == false) = true :=
  exists_next (by decide +kernel)

theorem test_witness_RegisterReadsFollowTheMap :
    (0x00#20).toNat = 0x00 ∧ (0x08#20).toNat = 0x08 ∧ (0x10#20).toNat = 0x10 ∧ (0x18#20).toNat = 0x18 ∧ (0x20#20).toNat = 0x20 ∧
      (0x28#20).toNat = 0x28 ∧ (0x30#20).toNat = 0x30 ∧ (0x38#20).toNat = 0x38 ∧ (0x40#20).toNat = 0x40 ∧
      (0x48#20).toNat = 0x48 ∧ (0x50#20).toNat = 0x50 ∧ (0x58#20).toNat = 0x58 := by decide

theorem test_witness_CmdWriteWhileIdleAccepts : (0x20#20).toNat = 0x20 ∧ (idleThen []).busy = false := by decide

theorem test_witness_StatusWriteClearsBits : (0x18#20).toNat = 0x18 := by decide

theorem test_witness_CtrlWriteSetsInterruptEnable : (0x10#20).toNat = 0x10 := by decide

theorem test_witness_OtherRegisterWrites :
    (0x28#20).toNat = 0x28 ∧ (0x30#20).toNat = 0x30 ∧ (0x38#20).toNat = 0x38 ∧ (0x40#20).toNat = 0x40 ∧
      ((0x58#20).toNat = 0x58 ∧ (idleThen []).busy = false) ∧ ((0x58#20).toNat = 0x58 ∧ busyLpc.busy = true) ∧
      (0x00#20).toNat = 0x00 ∧ (0x08#20).toNat = 0x08 ∧ (0x48#20).toNat = 0x48 ∧ (0x50#20).toNat = 0x50 := by decide

/-- The first and the last word of the reference DMEM, the first one written and the last one not. -/
theorem test_witness_DmemWriteReadsBack :
    (idleThen []).busy = false ∧ (0 < (idleThen []).dmemWords ∧ (0x80000#20).toNat = 0x80000 + 8 * 0) ∧
      (idleThen []).dmem.readWord 0 = some 0x3FF0000000000000#64 ∧
      (4095 < (idleThen []).dmemWords ∧ (0x87FF8#20).toNat = 0x80000 + 8 * 4095 ∧ (idleThen []).dmem.readWord 4095 = none) := by
  decide +kernel

theorem test_witness_InterruptLineFollowsDone :
    (∃ t, complete busyLpc = .next t ∧ (t.irq == false) = true) ∧
      (∃ t, hwrite (idleThen []) 8 0x20#20 0#64 = .next t ∧ t.busy = true) ∧ (∃ t, hwrite busyLpc 8 0x20#20 0#64 = .next t ∧ t.ovr = true) ∧
      (∃ t, hwrite busyLpc 8 0x18#20 2#64 = .next t ∧ t.busy = true) ∧ (∃ t, hwrite busyLpc 8 0x10#20 1#64 = .next t ∧ t.ctrlIe = true) :=
  ⟨exists_next (by decide +kernel), exists_next (by decide +kernel), exists_next (by decide +kernel), exists_next (by decide +kernel),
    exists_next (by decide +kernel)⟩

/-- The input window ends at the last word of DMEM, and so does the output window. -/
theorem test_witness_LpcCompletes :
    let s := smallest (args2 2 0)
    (4 : Nat) ≠ 0 ∧ s.lat.arg.arg0.toNat ≠ 0 ∧ 60 + 4 ≤ s.dmemWords ∧ 61 + s.lat.arg.arg0.toNat + 1 ≤ s.dmemWords ∧
      s.dmem.readWords 60 4 = some ramp := by decide +kernel

theorem test_witness_ResonCompletes :
    let s := smallest (resArgs 0x0000000000000001#64)
    isFinite s.lat.arg.arg2 = true ∧ fgt s.lat.arg.arg2 0#64 = true ∧ 61 + 3 ≤ s.dmemWords := by decide +kernel

theorem test_witness_PconvCompletes :
    let s := smallest (args2 62 2)
    (3 : Nat) ≠ 0 ∧ s.lat.arg.arg1.toNat ≠ 0 ∧ 61 + 3 ≤ s.dmemWords ∧ s.lat.arg.arg0.toNat + s.lat.arg.arg1.toNat ≤ s.dmemWords ∧
      60 + 3 + s.lat.arg.arg1.toNat - 1 ≤ s.dmemWords ∧ s.dmem.readWords 61 3 = some (ramp.drop 1) ∧
      s.dmem.readWords s.lat.arg.arg0.toNat s.lat.arg.arg1.toNat = some (ramp.drop 2) := by decide +kernel

/-- A voiced frame (Y1) and an unvoiced one (YE8), and the boundary windows of the smallest DMEM. -/
theorem test_witness_YinCompletes :
    (let s := smallest y1Args
     (4 : Nat) ≠ 0 ∧ isFinite s.lat.arg.arg0 = true ∧ fgt s.lat.arg.arg0 0#64 = true ∧ fgt s.lat.arg.arg1 0#64 = true ∧
       flt s.lat.arg.arg1 s.lat.arg.arg2 = true ∧ 60 + 4 ≤ s.dmemWords ∧ 63 + 1 ≤ s.dmemWords ∧ s.dmem.readWords 60 4 = some ramp) ∧
      yinEstimate square y1Args.arg0 y1Args.arg1 y1Args.arg2 y1Args.arg3 = some (2, 0x4010750750750751#64) ∧
      yinEstimate square y1Args.arg0 y1Args.arg1 y1Args.arg2 0xBFF0000000000000#64 = none := by decide +kernel

theorem test_witness_NoiseCommandsComplete : (64 : Nat) ≠ 0 ∧ 0 + 64 ≤ (smallest (args2 0 0)).dmemWords := by decide

/-- One malformed configuration for each condition of R245's table; each completes with code 0x03. -/
theorem test_witness_ArgumentErrorExactlyWhen :
    let code3 := fun (i : Instr) (a : Args) => ends (exec i (smallest a)) fun t => t.errcode == 0x03#8
    (code3 (.lpc 60 0 0) (args2 1 0) && code3 (.lpc 60 0 4) (args2 0 0) && code3 (.reson 0 0 0) (resArgs 0x8000000000000000#64) &&
      code3 (.reson 0 0 0) (resArgs 0x7FF0000000000000#64) && code3 (.pconv 60 0 0) (args2 60 1) && code3 (.pconv 60 0 1) (args2 60 0) &&
      code3 (.yin 60 0 0) y1Args && code3 (.yin 60 0 4) { y1Args with arg0 := 0x7FF0000000000000#64 } &&
      code3 (.yin 60 0 4) { y1Args with arg0 := 0#64 } && code3 (.yin 60 0 4) { y1Args with arg1 := 0#64 } &&
      code3 (.yin 60 0 4) { y1Args with arg2 := 0x3FF0000000000000#64 } && code3 (.noise 0 0 0) y1Args &&
      code3 (.noisec 0 0 0) y1Args) = true := by decide +kernel

/-- One window just past DMEM for each condition of R246's table; each completes with code 0x04. -/
theorem test_witness_RangeErrorExactlyWhen :
    let code4 := fun (i : Instr) (a : Args) =>
      !argumentInvalid i (smallest a).lat && ends (exec i (smallest a)) fun t => t.errcode == 0x04#8
    (code4 (.lpc 61 0 4) (args2 1 0) && code4 (.lpc 60 62 4) (args2 2 0) && code4 (.reson 0 62 0) (resArgs 1#64) &&
      code4 (.pconv 61 0 4) (args2 60 1) && code4 (.pconv 60 0 1) (args2 64 1) && code4 (.pconv 60 62 2) (args2 60 2) &&
      code4 (.yin 61 0 4) y1Args && code4 (.yin 60 64 4) y1Args && code4 (.noise 0 64 1) y1Args && code4 (.noisec 0 1 64) y1Args) =
      true := by decide +kernel

theorem test_witness_ErrorCompletionEffects :
    ∃ t, complete (running 0x0104#64 (args2 0 0) 0 []) = .next t ∧ (t.errcode != 0x00#8) = true := exists_next (by decide +kernel)

/-- A completion with each of the five codes. -/
theorem test_witness_FirstFailingCheckIsReported :
    let code := fun (w : Word) (c : BitVec 8) => ends (complete (running w (args2 2 0) 0 ramp)) fun t => t.errcode == c
    (code 0x00#64 0x01#8 && code 0x0104#64 0x02#8 && code 0x0000FFFF00000001#64 0x03#8 && code 0x0004FFFF00000001#64 0x04#8 &&
      code 0x0004001000000001#64 0x00#8) = true := by decide +kernel

/-- Operands written for each command that reads DMEM, and operands unwritten past the same checks. -/
theorem test_witness_CommandsStopOnlyOnUnwrittenOperands :
    ((smallest (args2 1 0)).dmem.readWords 60 4).isSome = true ∧ ((smallest (args2 62 2)).dmem.readWords 62 2).isSome = true ∧
      stops (exec (.lpc 59 0 4) (smallest (args2 1 0))) = true ∧ stops (exec (.pconv 59 0 4) (smallest (args2 60 1))) = true ∧
      stops (exec (.pconv 60 0 4) (smallest (args2 59 1))) = true ∧ stops (exec (.yin 59 0 4) (smallest y1Args)) = true := by
  decide +kernel

theorem test_witness_BusySetByAcceptanceClearedByCompletion :
    (∃ t, step (idleThen [.hwrite 8 0x20#20 7#64]) = .next t ∧ t.busy = true) ∧
      (∃ t, step busyLpc = .next t ∧ (!t.busy) = true) ∧ (∃ t, step (busyThen [.rst]) = .next t ∧ (!t.busy) = true) ∧
      ∃ t, step (busyThen [.coreTurn]) = .next t ∧ (!t.busy) = true :=
  ⟨exists_next (by decide +kernel), exists_next (by decide +kernel), exists_next (by decide +kernel), exists_next (by decide +kernel)⟩

theorem test_witness_ErrIsSticky :
    (∃ t, step { idleThen [.hwrite 8 0x18#20 4#64] with err := true } = .next t ∧ (!t.err) = true) ∧
      (∃ t, step { idleThen [.rst] with err := true } = .next t ∧ (!t.err) = true) ∧
      (∃ t, step (running 0#64 (args2 0 0) 0 []) = .next t ∧ (t.err && t.errcode != 0x00#8) = true) ∧
      ∃ t, step { busyLpc with err := true } = .next t ∧ (t.err && t.errcode == 0x00#8) = true :=
  ⟨exists_next (by decide +kernel), exists_next (by decide +kernel), exists_next (by decide +kernel), exists_next (by decide +kernel)⟩

theorem test_witness_OvrIsSticky :
    (∃ t, step { idleThen [.hwrite 8 0x18#20 8#64] with ovr := true } = .next t ∧ (!t.ovr) = true) ∧
      (∃ t, step { idleThen [.rst] with ovr := true } = .next t ∧ (!t.ovr) = true) ∧
      ∃ t, step (busyThen [.hwrite 8 0x20#20 1#64]) = .next t ∧ t.ovr = true :=
  ⟨exists_next (by decide +kernel), exists_next (by decide +kernel), exists_next (by decide +kernel)⟩

theorem test_witness_VoicedExactlyForVoicedYin :
    (∃ t, complete (running 0x0008000800000004#64 y1Args 0 square) = .next t ∧ t.voiced = true) ∧
      (∃ t, complete { busyLpc with voiced := true } = .next t ∧ (!t.voiced) = true) ∧
      (0x20#20).toNat = 0x20 ∧ ∃ t, hwrite { idleThen [] with voiced := true } 8 0x20#20 1#64 = .next t ∧ t.voiced = true :=
  ⟨exists_next (by decide +kernel), exists_next (by decide +kernel), by decide, exists_next (by decide +kernel)⟩

theorem test_witness_PrngStateHasThreeWriters :
    (∃ t, step { idleThen [.rst] with prng := 9#32 } = .next t ∧ (t.prng != 9#32) = true) ∧
      (∃ t, step (idleThen [.hwrite 8 0x58#20 5#64]) = .next t ∧ (t.prng != 0#32) = true) ∧
      ∃ t, step (running 0x0001000000000006#64 (args2 0 0) 0 []) = .next t ∧ (t.prng != 0#32) = true :=
  ⟨exists_next (by decide +kernel), exists_next (by decide +kernel), exists_next (by decide +kernel)⟩

theorem test_witness_BusyHoldsOperandsAndResults :
    busyLpc.busy = true ∧ (∃ t, step (busyThen [.hwrite 8 0x80000#20 0#64]) = .next t ∧ t.busy = true) ∧
      ∃ t, step (busyThen [.hwrite 8 0x28#20 3#64]) = .next t ∧ t.busy = true :=
  ⟨by decide, exists_next (by decide +kernel), exists_next (by decide +kernel)⟩

/-- A completing NOISE, and the same latch and DMEM beside changed live fields. -/
theorem test_witness_CompletionReadsOnlyTheLatch :
    let s := running 0x0001000000000005#64 (args2 0xFFFFFFFF 0) 0 []
    let u := { s with
      arg := args2 1 2, cmd := 3#64, prng := 4#32, ctrlIe := true, done := true, err := true, ovr := true, voiced := true,
      errcode := 4#8, result0 := 5#64, result1 := 6#64, busy := false }
    u.lat = s.lat ∧ u.dmem = s.dmem ∧ u.dmemWords = s.dmemWords ∧ (∃ t, complete s = .next t ∧ (t.err == false) = true) ∧
      ∃ t, complete u = .next t ∧ (t.err == true) = true :=
  ⟨rfl, rfl, rfl, exists_next (by decide +kernel), exists_next (by decide +kernel)⟩

/-- A busy state with written words meets the invariant, and its step has a next state. -/
theorem test_witness_StepKeepsTheInvariant : busyLpc.Inv ∧ ∃ t, step busyLpc = .next t ∧ (t.result0 == 3#64) = true := by
  refine ⟨⟨by decide, ?_, ?_, by unfold State.StatusCoherent; decide, by unfold State.ResultInMemory; decide, fun _ => rfl⟩,
    exists_next (by decide +kernel)⟩
  · exact Mem.wf_writeWords ramp Mem.wf_nil 0
  · exact Mem.whole_writeWords (W := 4096) ramp (m := []) (i := 0) (by simp) (by decide)

theorem test_witness_CompletionIsEventual :
    (busyThen [.hread 8 0x18#20, .hread 8 0x18#20, .coreTurn]).busy = true ∧
      Event.rst ∉ (busyThen [.hread 8 0x18#20, .hread 8 0x18#20, .coreTurn]).schedule := by decide

/-- Vector L5: one completed stage of three, so that elements 2 and 3 lie above it. -/
theorem test_witness_BurgOutputShape :
    1 ≤ [0x3FF0000000000000#64, 0xBFF0000000000000#64].length ∧ (1 : Nat) ≤ 3 ∧
      (burg [0x3FF0000000000000#64, 0xBFF0000000000000#64] 3).2 < 2 ∧ (2 : Nat) ≤ 3 := by decide +kernel

/-- Stage 1 of vector L3 and a stage 2, with indices on both sides of the windows. -/
theorem test_witness_BurgFollowsTheRecursion :
    (1 : Nat) ≤ 2 ∧ 1 < [f64One, f64Two, f64Zero].length ∧
      (let b := burgInit ramp 2
       1 + 3 ≤ b.ef.length ∧ b.eb.length = b.ef.length ∧ (2 : Nat) < 3 ∧ (0 : Nat) < 1 ∧ 2 + 2 ≤ b.ef.length ∧ 1 < 2 ∧ (0 : Nat) < 2 - 1) := by
  decide +kernel

theorem test_witness_SilentInputGivesTrivialPredictor :
    [0x0000000000000000#64, 0x8000000000000000#64] ≠ [] ∧ (1 : Nat) ≤ 1 ∧
      ∀ v ∈ [0x0000000000000000#64, 0x8000000000000000#64], v = 0x0000000000000000#64 ∨ v = 0x8000000000000000#64 := by
  simp

theorem test_witness_ConvolutionElements :
    ramp ≠ [] ∧ square ≠ [] ∧ 0 < ramp.length + square.length - 1 ∧ 10 < ramp.length + square.length - 1 := by decide

theorem test_witness_ConvolutionByOne : square ≠ [] := by decide

/-- `fmax = +∞`, where the floor of `qmax` is 0 and `qmin` infinite; and `sr = 2^1000`, `fmax = 2^-1000`, where `qmax` is infinite. -/
theorem test_witness_YinBoundsAreDefined :
    (isFinite 0x4030000000000000#64 = true ∧ fgt 0x4030000000000000#64 0#64 = true ∧ fgt 1#64 0#64 = true ∧
      flt 1#64 0x7FF0000000000000#64 = true ∧ 0 * unitsPerOne ≤ fmag (fdiv 0x4030000000000000#64 0x7FF0000000000000#64) ∧
      fmag (fdiv 0x4030000000000000#64 0x7FF0000000000000#64) < (0 + 1) * unitsPerOne ∧
      isInf (fdiv 0x4030000000000000#64 0x7FF0000000000000#64) = false ∧ isInf (fdiv 0x4030000000000000#64 1#64) = true) ∧
      flt 1#64 0x0170000000000000#64 = true ∧ isInf (fdiv 0x7E70000000000000#64 0x0170000000000000#64) = true ∧
      (let q := fdiv 0x4030000000000000#64 0x4014000000000000#64
       3 * unitsPerOne ≤ fmag q ∧ fmag q < (3 + 1) * unitsPerOne ∧ isInf q = false) := by decide +kernel

theorem test_witness_YinDifferenceAndCmnd : (1 : Nat) ≤ 7 ∧ 7 ≤ 7 ∧ 7 ≤ (yinDiffs square 7).length := by decide +kernel

/-- A lag found after a descent of one (Y1's array from lag 2, threshold 2), and none found. -/
theorem test_witness_YinSearchDescendsFromFirstDip :
    yinSearch [f64One, f64One, 0x3FE0000000000000#64, f64Zero, f64One] (some 1) 4 0x3FE8000000000000#64 = some 3 ∧
      yinSearch [f64One, f64One] (some 1) 1 f64One = none ∧ yinSearch [f64One] none 0 f64One = none := by decide +kernel

/-- Vector Y1 (interpolated) and the constant frame of vector Y5 cut to `tauMax = 2` (not interpolated). -/
theorem test_witness_YinPitchIsInterpolated :
    yinEstimate square y1Args.arg0 y1Args.arg1 y1Args.arg2 y1Args.arg3 = some (2, 0x4010750750750751#64) ∧
      yinEstimate (List.replicate 3 f64One) 0x4020000000000000#64 0x3FF0000000000000#64 0x4010000000000000#64 0x3FF8000000000000#64 =
        some (2, 0x4010000000000000#64) := by decide +kernel

/-- A threshold of exactly 1.0, and vector Y5's threshold 1.5 with `tauMin = 2` and `tauMax = 7`. -/
theorem test_witness_ConstantFrameEstimate :
    isFinite 0x3FF0000000000000#64 = true ∧ fle 0x3FF0000000000000#64 0x3FF0000000000000#64 = true ∧
      fgt 0x3FF8000000000000#64 0x3FF0000000000000#64 = true ∧
      yinBounds 0x4020000000000000#64 0x3FF0000000000000#64 0x4010000000000000#64 8 = (some 2, 7) ∧ 2 ≤ 7 := by decide +kernel

theorem test_witness_GaussSamplesFollowTheLcg : (0 : Nat) < 1 ∧ (2 : Nat) < 3 := by decide

/-- The second block is the first one's next state with its PRNG_STATE latched, as a CMD write leaves it. -/
theorem test_witness_NoisecContinuesNoise :
    let s := smallest (args2 5 0)
    (1 : Nat) ≠ 0 ∧ (63 : Nat) ≠ 0 ∧ 0 + (1 + 63) ≤ s.dmemWords ∧
      ∃ u : State, ∀ t, exec (.noise 0 0 1) s = .next t → u.dmem = t.dmem ∧ u.lat.prng = t.prng ∧ u.dmemWords = t.dmemWords := by
  refine ⟨by decide, by decide, by decide, ?_⟩
  obtain ⟨t, ht, -⟩ := exists_next (o := exec (.noise 0 0 1) (smallest (args2 5 0))) (P := fun t => !t.busy) (by decide +kernel)
  exact ⟨t.accept 0x003F000100000006#64, fun t' h => by rw [ht] at h; cases h; exact ⟨rfl, rfl, rfl⟩⟩

/-- Finite operands; a zero and a nonzero sum and difference; a zero and a nonzero divisor; a sum and a quotient past the overflow
threshold; an infinity on each side and on both, of both signs. -/
theorem test_witness_AddMulDivRoundOnce :
    isFinite 0x7FEFFFFFFFFFFFFF#64 = true ∧ isFinite 1#64 = true ∧ fmag 1#64 ≠ 0 ∧ fint 1#64 + fint 1#64 ≠ 0 ∧
      fint 0#64 + fint 0x8000000000000000#64 = 0 ∧ fint 1#64 - fint 1#64 = 0 ∧ fmag 0x8000000000000000#64 = 0 ∧
      isFinite (fadd 1#64 1#64) = true ∧ isFinite (fadd 0x7FEFFFFFFFFFFFFF#64 0x7FEFFFFFFFFFFFFF#64) = false ∧
      isFinite (fdiv 0x7FEFFFFFFFFFFFFF#64 1#64) = false ∧ isInf 0x7FF0000000000000#64 = true ∧
      isInf 0xFFF0000000000000#64 = true := by decide +kernel

/-- The least positive value, with values on each side of its root; a negative zero; the least negative value; `-∞`. -/
theorem test_witness_SqrtRoundsToNearest :
    (isFinite 1#64 = true ∧ fsign 1#64 = false ∧ fmag 1#64 ≠ 0 ∧ fmag 0#64 < fmag (fsqrt 1#64) ∧
      fmag (fsqrt 1#64) < fmag 0x3FF0000000000000#64) ∧
      fmag 0x8000000000000000#64 = 0 ∧
      (isNaN 0x8000000000000001#64 = false ∧ fsign 0x8000000000000001#64 = true ∧ fmag 0x8000000000000001#64 ≠ 0) ∧
      (isNaN 0xFFF0000000000000#64 = false ∧ fsign 0xFFF0000000000000#64 = true ∧ fmag 0xFFF0000000000000#64 ≠ 0) := by decide +kernel

theorem test_witness_NaNResultsAreCanonical :
    isNaN (fdiv 0#64 0#64) = true ∧ isNaN (fsqrt 0xBFF0000000000000#64) = true ∧ isNaN (fadd 0#64 0xFFF8000000000001#64) = true ∧
      isNaN 0x7FF0000000000001#64 = true ∧ isNaN 0xFFFFFFFFFFFFFFFF#64 = true := by
  decide +kernel

/-- NaNs at both ends of their range; the zeros, the infinities and the greatest finite value, which are none. -/
theorem test_witness_ComparisonsAreIeee :
    isNaN 0xFFFFFFFFFFFFFFFF#64 = true ∧ isNaN 0x7FF0000000000001#64 = true ∧ isNaN 0#64 = false ∧
      isNaN 0x8000000000000000#64 = false ∧ isNaN 0x7FF0000000000000#64 = false ∧ isNaN 0xFFF0000000000000#64 = false ∧
      isNaN 0x7FEFFFFFFFFFFFFF#64 = false := by decide

end Sys2Proof.Tests
end

section
/-! PROOFS. Facts about the values that the proofs below share: the words of the infinities and zeros, the classes, magnitudes. -/

namespace Sys2Proof.Machine

open Sys2Proof

/-! ### The infinities and the zeros -/

theorem finf_eq (neg : Bool) : finf neg = if neg then 0xFFF0000000000000#64 else 0x7FF0000000000000#64 := by
  cases neg <;> rfl

theorem fzero_eq (neg : Bool) : fzero neg = if neg then 0x8000000000000000#64 else 0x0000000000000000#64 := by
  cases neg <;> rfl

@[simp] theorem isNaN_finf (neg : Bool) : isNaN (finf neg) = false := by cases neg <;> decide

@[simp] theorem isNaN_fzero (neg : Bool) : isNaN (fzero neg) = false := by cases neg <;> decide

/-- There are two infinities. -/
theorem isInf_iff_eq_or (x : F64) : isInf x = true ↔ x = finf false ∨ x = finf true := by
  rw [isInf_iff_eq_finf]
  constructor
  · intro h; cases hs : fsign x <;> rw [hs] at h <;> simp [h]
  · rintro (rfl | rfl) <;> decide

theorem eq_fzero_of_fmag {x : F64} (h : fmag x = 0) : x = fzero (fsign x) := by
  rw [fzero, ← fmag_eq_zero.1 h, fpack_fsign_fbits]

theorem fmag_fzero (neg : Bool) : fmag (fzero neg) = 0 := by cases neg <;> decide

theorem isNaN_of_fmag_eq_zero {a : F64} (h : fmag a = 0) : isNaN a = false := by
  rw [← Bool.not_eq_true, isNaN_iff, fmag_eq_zero.1 h]; exact Nat.not_lt_zero _

/-! ### The classes -/

theorem isNaN_eq_false_iff (x : F64) : isNaN x = false ↔ fbits x ≤ infBits := by
  rw [← Bool.not_eq_true, isNaN_iff, not_lt]

/-- Every value is a NaN, an infinity or finite. -/
theorem isFinite_of_isNaN_isInf_eq_false {x : F64} (hn : isNaN x = false) (hi : isInf x = false) : isFinite x = true := by
  rw [← Bool.not_eq_true, isNaN_iff] at hn
  rw [← Bool.not_eq_true, isInf_iff] at hi
  rw [isFinite_iff]; omega

/-! ### Magnitudes -/

theorem fmag_lt_of_isFinite {a : F64} (ha : isFinite a = true) : fmag a < 2 ^ 52 * 2 ^ 2046 := by
  rw [← magOf_infBits, fmag_eq, magOf_lt]
  exact (isFinite_iff a).1 ha

theorem natAbs_fint (x : F64) : (fint x).natAbs = fmag x := by
  unfold fint; split <;> omega

theorem fint_neg_iff {x : F64} (h0 : fmag x ≠ 0) : fint x < 0 ↔ fsign x = true := by
  unfold fint; split <;> simp [*, Nat.pos_of_ne_zero h0]

theorem fmag_one : fmag f64One = unitsPerOne := by
  rw [fmag_eq, show fbits f64One = 1022 * 2 ^ 52 + 2 ^ 52 by decide, magOf_scaled (by norm_num) (.inr le_rfl), ← pow_add,
    unitsPerOne_eq]

theorem unitsPerOne_eq_mul_self : unitsPerOne = 2 ^ 537 * 2 ^ 537 := by rw [← pow_add, unitsPerOne_eq]

end Sys2Proof.Machine
end

section
/-! PROOFS. The comparisons order the words by sign and magnitude (00_scope.md R15; log entry 10). -/

namespace Sys2Proof.Machine

open Sys2Proof

/-! ### Sign and magnitude -/

/-- Sign and magnitude of a word, as an integer: `fint_lt_iff` says that the values of two words compare as these do. -/
def signMag (x : F64) : Int := if fsign x then -(fbits x : Int) else fbits x

theorem fint_lt_iff_signMag (x y : F64) : fint x < fint y ↔ signMag x < signMag y := fint_lt_iff x y

theorem signMag_eq_bits (x : F64) :
    signMag x = if x.getLsbD 63 then -((x.extractLsb' 0 63).toNat : Int) else ((x.extractLsb' 0 63).toNat : Int) := by
  rw [signMag, fsign_eq_getLsbD, toNat_extractLsb'_eq_field, Word.field, pow_zero, Nat.div_one, fbits]

theorem signMag_finf (neg : Bool) : signMag (finf neg) = if neg then -(infBits : Int) else infBits := by
  cases neg <;> decide

/-- An infinity is the only word of its sign and magnitude. -/
theorem signMag_eq_finf_iff (x : F64) (neg : Bool) : signMag x = signMag (finf neg) ↔ x = finf neg := by
  constructor
  · intro h
    have hpos : 0 < infBits := by decide
    have hx : fsign x = neg ∧ fbits x = infBits := by
      rw [signMag_finf, signMag] at h
      revert h
      cases fsign x <;> cases neg <;> simp only [if_true, if_false, reduceCtorEq, false_and, true_and] <;> omega
    rw [← fpack_fsign_fbits x, hx.1, hx.2, finf]
  · rintro rfl; rfl

/-- The infinities bound every value that is no NaN. -/
theorem signMag_bounds {x : F64} (h : isNaN x = false) : signMag (finf true) ≤ signMag x ∧ signMag x ≤ signMag (finf false) := by
  have hb := (isNaN_eq_false_iff x).1 h
  rw [signMag_finf, signMag_finf, signMag]
  cases fsign x <;> simp only [if_true, if_false, reduceCtorEq] <;> omega

/-! ### Comparisons -/

theorem comparisons_of_isNaN {a b : F64} (h : isNaN a = true ∨ isNaN b = true) :
    flt a b = false ∧ fle a b = false ∧ fgt a b = false ∧ fne a b = true := by
  rcases h with h | h <;> simp [flt, fle, fgt, fne, h]

theorem fgt_eq_flt (a b : F64) : fgt a b = flt b a := by rw [fgt, flt, Bool.and_comm (!isNaN a)]

section
variable {a b : F64} (ha : isNaN a = false) (hb : isNaN b = false)
include ha hb

theorem flt_iff : flt a b = true ↔ fint a < fint b := by simp [flt, ha, hb]

theorem fle_iff : fle a b = true ↔ fint a ≤ fint b := by simp [fle, ha, hb]

theorem fne_iff : fne a b = true ↔ fint a ≠ fint b := by simp [fne, ha, hb]

theorem fgt_iff : fgt a b = true ↔ fint b < fint a := by rw [fgt_eq_flt, flt_iff hb ha]

theorem fle_eq_not_fgt : fle a b = !fgt a b := by
  rw [Bool.eq_iff_iff, Bool.not_eq_true', ← Bool.not_eq_true, fle_iff ha hb, fgt_iff ha hb, not_lt]

theorem fne_eq_or : fne a b = (flt a b || flt b a) := by
  rw [Bool.eq_iff_iff, Bool.or_eq_true, fne_iff ha hb, flt_iff ha hb, flt_iff hb ha, ne_iff_lt_or_gt]

theorem flt_asymm : ¬ (flt a b = true ∧ flt b a = true) := by
  rw [flt_iff ha hb, flt_iff hb ha]; exact fun h => lt_asymm h.1 h.2

theorem flt_iff_signMag : flt a b = true ↔ signMag a < signMag b := (flt_iff ha hb).trans (fint_lt_iff_signMag a b)

end

theorem flt_posInf_iff {a : F64} (ha : isNaN a = false) : flt a (finf false) = true ↔ a ≠ finf false := by
  rw [flt_iff_signMag ha (isNaN_finf _), Ne, ← signMag_eq_finf_iff]
  exact (signMag_bounds ha).2.lt_iff_ne

theorem negInf_flt_iff {a : F64} (ha : isNaN a = false) : flt (finf true) a = true ↔ a ≠ finf true := by
  rw [flt_iff_signMag (isNaN_finf _) ha, Ne, ← signMag_eq_finf_iff, eq_comm]
  exact (signMag_bounds ha).1.lt_iff_ne

theorem isFinite_iff_not_special (a : F64) :
    isFinite a = true ↔ isNaN a = false ∧ a ≠ finf false ∧ a ≠ finf true := by
  rw [← not_or, ← isInf_iff_eq_or, isFinite_iff, isNaN_eq_false_iff, isInf_iff]
  omega

/-- Settles O59: `fint` orders the words by sign and magnitude, and the infinities are the ends of that order. -/
theorem comparisonsAreIeee : Obligations.ComparisonsAreIeee := by
  intro a b
  refine ⟨comparisons_of_isNaN, fun ha hb => ⟨flt_iff ha hb, fle_iff ha hb, fgt_iff ha hb, fne_iff ha hb, ?_, flt_posInf_iff ha,
    negInf_flt_iff ha, fgt_eq_flt a b, fle_eq_not_fgt ha hb, fne_eq_or ha hb, flt_asymm ha hb⟩, by decide,
    isFinite_iff_not_special a⟩
  simpa only [signMag_eq_bits] using flt_iff_signMag ha hb

end Sys2Proof.Machine
end

section
/-! PROOFS. The sum, difference, product and quotient of operands that are no NaN (00_scope.md R14, R16; log entry 10). -/

namespace Sys2Proof.Machine

open Sys2Proof

/-- `r` is `n / d` units rounded once: an infinity exactly from the overflow threshold on, and else nearest, ties to even. -/
def RoundsOnce (n d : Nat) (r : F64) : Prop :=
  (isFinite r = true ↔ ¬ Overflows n d) ∧ isNaN r = false ∧ (isFinite r = true → NearestEven n d r)

theorem roundsOnce_fround (neg : Bool) {n d : Nat} (hd : 0 < d) : RoundsOnce n d (fround neg n d) :=
  ⟨isFinite_fround_iff neg hd, isNaN_fround neg n d, fround_nearest neg hd⟩

/-- A sum of finite values is a rounding also where it is zero: only its sign is a rule of its own. -/
theorem fadd_eq_fround {a b : F64} (ha : isFinite a = true) (hb : isFinite b = true) :
    fadd a b = fround (if fint a + fint b = 0 then fsign a && fsign b else decide (fint a + fint b < 0))
      (fint a + fint b).natAbs 1 := by
  rw [fadd_of_finite ha hb]
  split
  · next h => rw [h, fzero_eq_fround]; rfl
  · rfl

theorem fadd_roundsOnce {a b : F64} (ha : isFinite a = true) (hb : isFinite b = true) :
    RoundsOnce (fint a + fint b).natAbs 1 (fadd a b) ∧
      fsign (fadd a b) = if fint a + fint b = 0 then fsign a && fsign b else decide (fint a + fint b < 0) := by
  rw [fadd_eq_fround ha hb]
  exact ⟨roundsOnce_fround _ Nat.one_pos, fsign_fround _ _ _⟩

theorem fsub_roundsOnce {a b : F64} (ha : isFinite a = true) (hb : isFinite b = true) :
    RoundsOnce (fint a - fint b).natAbs 1 (fsub a b) ∧
      fsign (fsub a b) = if fint a - fint b = 0 then fsign a && !fsign b else decide (fint a - fint b < 0) := by
  have h := fadd_roundsOnce ha ((isFinite_fneg b).trans hb)
  rwa [fint_fneg, fsign_fneg, ← Int.sub_eq_add_neg] at h

theorem fmul_roundsOnce {a b : F64} (ha : isFinite a = true) (hb : isFinite b = true) :
    RoundsOnce (fmag a * fmag b) unitsPerOne (fmul a b) ∧ fsign (fmul a b) = (fsign a != fsign b) := by
  rw [fmul_of_finite ha hb]
  exact ⟨roundsOnce_fround _ unitsPerOne_pos, fsign_fround _ _ _⟩

theorem fdiv_roundsOnce {a b : F64} (ha : isFinite a = true) (hb : isFinite b = true) (h0 : fmag b ≠ 0) :
    RoundsOnce (fmag a * unitsPerOne) (fmag b) (fdiv a b) ∧ fsign (fdiv a b) = (fsign a != fsign b) := by
  rw [fdiv_of_finite ha hb h0]
  exact ⟨roundsOnce_fround _ (Nat.pos_of_ne_zero h0), fsign_fround _ _ _⟩

theorem arith_of_isInf_left {a b : F64} (ha : isInf a = true) (hb : isFinite b = true) :
    fadd a b = a ∧ fsub a b = a ∧ fmul a b = (if fmag b = 0 then f64NaN else finf (fsign a != fsign b)) ∧
      fdiv a b = finf (fsign a != fsign b) := by
  have hna := isNaN_of_isInf ha
  have hnb := isNaN_of_isFinite hb
  have hib := isInf_of_isFinite hb
  refine ⟨?_, ?_, ?_, ?_⟩
  · simp [fadd_of_isInf_left ha hnb, hib]
  · simp [fsub, fadd_of_isInf_left ha ((isNaN_fneg b).trans hnb), hib]
  · simp [fmul_of_isInf hna hnb (.inl ha), fmag_ne_zero_of_isInf ha]
  · simp [fdiv_of_isInf_left ha hnb, hib]

theorem arith_of_isInf_right {a b : F64} (ha : isFinite a = true) (hb : isInf b = true) :
    fadd a b = b ∧ fsub a b = fneg b ∧ fmul a b = (if fmag a = 0 then f64NaN else finf (fsign a != fsign b)) ∧
      fdiv a b = fzero (fsign a != fsign b) := by
  refine ⟨fadd_of_isInf_right ha hb, fadd_of_isInf_right ha ((isInf_fneg b).trans hb), ?_, fdiv_of_isInf_right ha hb⟩
  simp [fmul_of_isInf (isNaN_of_isFinite ha) (isNaN_of_isInf hb) (.inr hb), fmag_ne_zero_of_isInf hb]

theorem arith_of_isInf_both {a b : F64} (ha : isInf a = true) (hb : isInf b = true) :
    fadd a b = (if fsign a = fsign b then a else f64NaN) ∧ fsub a b = (if fsign a = fsign b then f64NaN else a) ∧
      fmul a b = finf (fsign a != fsign b) ∧ fdiv a b = f64NaN := by
  have hna := isNaN_of_isInf ha
  have hnb := isNaN_of_isInf hb
  refine ⟨?_, ?_, ?_, ?_⟩
  · rw [fadd_of_isInf_left ha hnb, hb]
    cases fsign a <;> cases fsign b <;> rfl
  · rw [fsub, fadd_of_isInf_left ha ((isNaN_fneg b).trans hnb), isInf_fneg, hb, fsign_fneg]
    cases fsign a <;> cases fsign b <;> rfl
  · simp [fmul_of_isInf hna hnb (.inl ha), fmag_ne_zero_of_isInf ha, fmag_ne_zero_of_isInf hb]
  · simp [fdiv_of_isInf_left ha hnb, hb]

/-- Settles O56: each class of operands by its own lemma. -/
theorem addMulDivRoundOnce : Obligations.AddMulDivRoundOnce := by
  intro a b nan inf zero opposite roundsOnce
  have hinf : inf opposite = finf opposite := (finf_eq _).symm
  have hzero : zero opposite = fzero opposite := (fzero_eq _).symm
  rw [hinf, hzero]
  exact ⟨fun ha hb =>
      ⟨fadd_roundsOnce ha hb, fsub_roundsOnce ha hb, fmul_roundsOnce ha hb, fdiv_roundsOnce ha hb, fdiv_by_zero ha hb⟩,
    arith_of_isInf_left, arith_of_isInf_right, arith_of_isInf_both⟩

end Sys2Proof.Machine
end

section
/-! PROOFS. The NaN results of the primitives and of the elementary functions (00_scope.md R16; log entry 10). -/

namespace Sys2Proof.Machine

open Sys2Proof

/-- `x` is no NaN but the canonical one. -/
def CanonicalNaN (x : F64) : Prop := isNaN x = true → x = f64NaN

theorem canonicalNaN_nan : CanonicalNaN f64NaN := fun _ => rfl

theorem canonicalNaN_of_isNaN_eq_false {x : F64} (h : isNaN x = false) : CanonicalNaN x :=
  fun h' => absurd h' (by simp [h])

theorem canonicalNaN_fround (neg : Bool) (n d : Nat) : CanonicalNaN (fround neg n d) :=
  canonicalNaN_of_isNaN_eq_false (isNaN_fround neg n d)

theorem canonicalNaN_finf (neg : Bool) : CanonicalNaN (finf neg) := canonicalNaN_of_isNaN_eq_false (isNaN_finf neg)

theorem canonicalNaN_fzero (neg : Bool) : CanonicalNaN (fzero neg) := canonicalNaN_of_isNaN_eq_false (isNaN_fzero neg)

theorem canonicalNaN_canon (x : F64) : CanonicalNaN (canon x) := by
  unfold canon
  split
  · exact canonicalNaN_nan
  · next h => exact canonicalNaN_of_isNaN_eq_false (by simpa using h)

/-! ### A NaN operand -/

theorem arith_of_isNaN {a b : F64} (h : isNaN a = true ∨ isNaN b = true) :
    fadd a b = f64NaN ∧ fsub a b = f64NaN ∧ fmul a b = f64NaN ∧ fdiv a b = f64NaN := by
  have h' : (isNaN a || isNaN b) = true := by simpa using h
  simp only [fsub, fadd, fmul, fdiv, isNaN_fneg, h', if_true, and_self]

theorem fsqrt_of_isNaN {a : F64} (h : isNaN a = true) : fsqrt a = f64NaN := by rw [fsqrt, if_pos h]

/-! ### The results, case by case as the primitives are defined -/

theorem canonicalNaN_fadd (a b : F64) : CanonicalNaN (fadd a b) := by
  unfold fadd
  split_ifs with hn ha hab hb
  · exact canonicalNaN_nan
  · exact canonicalNaN_nan
  · exact canonicalNaN_of_isNaN_eq_false (isNaN_of_isInf ha)
  · exact canonicalNaN_of_isNaN_eq_false (isNaN_of_isInf hb)
  · dsimp only
    split
    · exact canonicalNaN_fzero _
    · exact canonicalNaN_fround _ _ _

theorem canonicalNaN_fmul (a b : F64) : CanonicalNaN (fmul a b) := by
  simp only [fmul]
  split_ifs
  · exact canonicalNaN_nan
  · exact canonicalNaN_nan
  · exact canonicalNaN_finf _
  · exact canonicalNaN_fround _ _ _

theorem canonicalNaN_fdiv (a b : F64) : CanonicalNaN (fdiv a b) := by
  simp only [fdiv]
  split_ifs
  · exact canonicalNaN_nan
  · exact canonicalNaN_nan
  · exact canonicalNaN_finf _
  · exact canonicalNaN_fzero _
  · exact canonicalNaN_nan
  · exact canonicalNaN_finf _
  · exact canonicalNaN_fround _ _ _

theorem canonicalNaN_fsqrt (a : F64) : CanonicalNaN (fsqrt a) := by
  unfold fsqrt
  split_ifs with hn _ _ hinf
  · exact canonicalNaN_nan
  · exact canonicalNaN_of_isNaN_eq_false (by simpa using hn)
  · exact canonicalNaN_nan
  · exact canonicalNaN_of_isNaN_eq_false (isNaN_of_isInf hinf)
  · exact canonicalNaN_fround _ _ _

/-- Settles O58: each primitive's results, and `canon` around each elementary function. -/
theorem naNResultsAreCanonical : Obligations.NaNResultsAreCanonical := by
  intro a b
  refine ⟨?_, fun h => ?_, fsqrt_of_isNaN⟩
  · simp only [List.forall_mem_cons, List.not_mem_nil, false_implies, implies_true, and_true]
    exact ⟨canonicalNaN_fadd a b, canonicalNaN_fadd a (fneg b), canonicalNaN_fmul a b, canonicalNaN_fdiv a b, canonicalNaN_fsqrt a,
      canonicalNaN_canon _, canonicalNaN_canon _, canonicalNaN_canon _, canonicalNaN_canon _⟩
  · simp only [List.forall_mem_cons, List.not_mem_nil, false_implies, implies_true, and_true]
    exact arith_of_isNaN h

end Sys2Proof.Machine
end

section
/-! PROOFS. The square root (00_scope.md R14, R16; log entry 10). `fsqrt` rounds half of the sticky root. Only `2 r + 1`, `r` the
integer root, can lie between the sticky root and twice the exact one, and no rounded value and another one sum to it. -/

namespace Sys2Proof.Machine

open Sys2Proof

/-- Twice the integer root of `S`, with a sticky bit where `S` is no square. -/
def stickyRoot (S : Nat) : Nat := 2 * isqrt S + if isqrt S * isqrt S = S then 0 else 1

/-- Every number but the odd `2 r + 1`, `r` the integer root of `S`, lies on the same side of `2 √S` as of the sticky root. -/
theorem stickyRoot_le {S t : Nat} (ht : t ≠ 2 * isqrt S + 1) (h : stickyRoot S ≤ t) : 4 * S ≤ t * t := by
  obtain ⟨-, hlt⟩ := isqrt_spec S
  unfold stickyRoot at h
  generalize isqrt S = r at *
  split at h
  · next hr => calc 4 * S = (2 * r) * (2 * r) := by rw [← hr]; ring
      _ ≤ t * t := Nat.mul_self_le_mul_self h
  · have h2 : 2 * (r + 1) ≤ t := by omega
    calc 4 * S ≤ 4 * ((r + 1) * (r + 1)) := by omega
      _ = (2 * (r + 1)) * (2 * (r + 1)) := by ring
      _ ≤ t * t := Nat.mul_self_le_mul_self h2

theorem le_stickyRoot {S t : Nat} (ht : t ≠ 2 * isqrt S + 1) (h : t ≤ stickyRoot S) : t * t ≤ 4 * S := by
  obtain ⟨hle, -⟩ := isqrt_spec S
  have h2 : t ≤ 2 * isqrt S := by unfold stickyRoot at h; split at h <;> omega
  calc t * t ≤ (2 * isqrt S) * (2 * isqrt S) := Nat.mul_self_le_mul_self h2
    _ = 4 * (isqrt S * isqrt S) := by ring
    _ ≤ 4 * S := Nat.mul_le_mul_left 4 hle

theorem isqrt_ge {S k : Nat} (h : k * k ≤ S) : k ≤ isqrt S := by
  by_contra hlt
  have h1 := Nat.mul_self_le_mul_self (show isqrt S + 1 ≤ k by omega)
  have h2 := (isqrt_spec S).2
  omega

theorem isqrt_lt {S k : Nat} (h : S < k * k) : isqrt S < k := by
  by_contra hge
  have h1 := Nat.mul_self_le_mul_self (not_lt.1 hge)
  have h2 := (isqrt_spec S).1
  omega

/-! ### The parity of midpoints -/

theorem magOf_two_pow_53 : magOf (2 ^ 53) = 2 ^ 53 := magOf_scaled (sh := 1) (q := 2 ^ 52) (by norm_num) (.inr le_rfl)

theorem magOf_two_pow_54 : magOf (3 * 2 ^ 52) = 2 ^ 54 := magOf_scaled (sh := 2) (q := 2 ^ 52) (by norm_num) (.inr le_rfl)

/-- From `2^53` units on, every value is even. -/
theorem magOf_even {b : Nat} (h : 2 ^ 53 ≤ b) : magOf b % 2 = 0 := by
  obtain ⟨sh, q, rfl, hq, hs⟩ := exists_scaled b
  obtain ⟨k, rfl⟩ : ∃ k, sh = k + 1 := ⟨sh - 1, by omega⟩
  rw [magOf_scaled hq.le hs, pow_succ, ← Nat.mul_assoc, Nat.mul_mod_left]

/-- The values a large `n / 2` rounds to and any other do not sum to an odd number next to `n`: every large value is even, and a
small one is not the neighbour. -/
theorem rounded_add_ne {n r : Nat} (hr : 2 ^ 54 ≤ r) (hn : n = 2 * r ∨ n = 2 * r + 1) (b : Nat) :
    magOf (rawBits n 2) + magOf b ≠ 2 * r + 1 := by
  intro heq
  have hR : 2 ^ 53 < rawBits n 2 := by
    by_contra hle
    have h1 := (rawBits_nearest n 2 (3 * 2 ^ 52) (by norm_num)).1 (by omega)
    have h2 := magOf_le.2 (not_lt.1 hle)
    rw [magOf_two_pow_53] at h2
    rw [magOf_two_pow_54] at h1
    omega
  have hb : b < 2 ^ 53 := by
    by_contra hge
    have h1 := magOf_even hR.le
    have h2 := magOf_even (not_lt.1 hge)
    omega
  have h1 := (rawBits_nearest n 2 (2 ^ 53) (by norm_num)).2.1 hR
  have h2 := magOf_lt.2 hb
  rw [magOf_two_pow_53] at h1 h2
  omega

/-! ### `fsqrt` by class of operand -/

theorem fsqrt_of_zero {a : F64} (h : fmag a = 0) : fsqrt a = a := by
  simp [fsqrt, isNaN_of_fmag_eq_zero h, h]

theorem fsqrt_of_negative {a : F64} (hn : isNaN a = false) (hs : fsign a = true) (h0 : fmag a ≠ 0) : fsqrt a = f64NaN := by
  simp [fsqrt, hn, hs, h0]

theorem fsqrt_posInf : fsqrt (finf false) = finf false := by
  have hi : isInf (finf false) = true := by decide
  have hs : fsign (finf false) = false := by decide
  simp [fsqrt, isNaN_of_isInf hi, fmag_ne_zero_of_isInf hi, hs, hi]

theorem fsqrt_of_positive {a : F64} (ha : isFinite a = true) (hs : fsign a = false) (h0 : fmag a ≠ 0) :
    fsqrt a = fround false (stickyRoot (fmag a * unitsPerOne)) 2 := by
  simp only [fsqrt, isNaN_of_isFinite ha, isInf_of_isFinite ha, hs, h0, Bool.false_eq_true, if_false, stickyRoot]

/-! ### The range of the root -/

/-- The root of a positive value has more than 54 bits, in units. -/
theorem isqrt_units_ge {m : Nat} (h0 : m ≠ 0) : 2 ^ 54 ≤ isqrt (m * unitsPerOne) := by
  have h : unitsPerOne ≤ m * unitsPerOne := Nat.le_mul_of_pos_left _ (Nat.pos_of_ne_zero h0)
  calc 2 ^ 54 ≤ 2 ^ 537 := pow_le_pow_right₀ one_le_two (by norm_num)
    _ ≤ isqrt (m * unitsPerOne) := isqrt_ge (by rwa [← unitsPerOne_eq_mul_self])

theorem isqrt_units_lt {m : Nat} (h : m < 2 ^ 52 * 2 ^ 2046) : isqrt (m * unitsPerOne) < 2 ^ 2044 := by
  have hsq : m * unitsPerOne < (2 ^ 1049 * 2 ^ 537) * (2 ^ 1049 * 2 ^ 537) := by
    rw [← pow_add, show 52 + 2046 = 1049 + 1049 by norm_num, pow_add] at h
    rw [Nat.mul_mul_mul_comm, ← unitsPerOne_eq_mul_self]
    exact Nat.mul_lt_mul_of_pos_right h unitsPerOne_pos
  refine lt_of_lt_of_le (isqrt_lt hsq) ?_
  rw [← pow_add]
  exact pow_le_pow_right₀ one_le_two (by norm_num)

theorem stickyRoot_cases (S : Nat) : stickyRoot S = 2 * isqrt S ∨ stickyRoot S = 2 * isqrt S + 1 := by
  unfold stickyRoot; split <;> simp

theorem stickyRoot_not_overflows {m : Nat} (h : m < 2 ^ 52 * 2 ^ 2046) : ¬ Overflows (stickyRoot (m * unitsPerOne)) 2 := by
  have h1 := isqrt_units_lt h
  have h2 := stickyRoot_cases (m * unitsPerOne)
  unfold Overflows
  generalize 2 ^ 2044 = P at *
  omega

/-- The root of a positive finite value is finite, positive and nearest. -/
theorem fsqrt_nearest {a : F64} (ha : isFinite a = true) (hs : fsign a = false) (h0 : fmag a ≠ 0) :
    isFinite (fsqrt a) = true ∧ fsign (fsqrt a) = false ∧ ∀ c : F64, isFinite c = true →
      (fmag (fsqrt a) < fmag c →
        4 * (fmag a * unitsPerOne) ≤ (fmag (fsqrt a) + fmag c) * (fmag (fsqrt a) + fmag c)) ∧
      (fmag c < fmag (fsqrt a) →
        (fmag (fsqrt a) + fmag c) * (fmag (fsqrt a) + fmag c) ≤ 4 * (fmag a * unitsPerOne)) := by
  rw [fsqrt_of_positive ha hs h0]
  have hfin := (isFinite_fround_iff false Nat.two_pos).2 (stickyRoot_not_overflows (fmag_lt_of_isFinite ha))
  refine ⟨hfin, fsign_fround _ _ _, fun c hc => ?_⟩
  have hne := rounded_add_ne (isqrt_units_ge h0) (stickyRoot_cases _) (fbits c)
  rw [← fbits_fround_of_isFinite hfin, ← fmag_eq, ← fmag_eq] at hne
  obtain ⟨hup, hdown, -⟩ := fround_nearest false Nat.two_pos hfin c hc
  exact ⟨fun h => stickyRoot_le hne (by have := hup h; omega), fun h => le_stickyRoot hne (by have := hdown h; omega)⟩

/-- Settles O57: of positive values by the nearest rounding of the sticky root, of the others by their class. -/
theorem sqrtRoundsToNearest : Obligations.SqrtRoundsToNearest :=
  fun _ => ⟨fsqrt_nearest, fsqrt_of_zero, fsqrt_of_negative, fsqrt_posInf⟩

end Sys2Proof.Machine
end

section
/-! PROOFS. The product with the polynomial `[1.0]` (41_resonance.md R187): `1.0 x` is `x`, and a sum of one term adds `+0.0`. -/

namespace Sys2Proof.Machine

open Sys2Proof

theorem fmul_one_left {x : F64} (hn : isNaN x = false) : fmul f64One x = x := by
  have h1 : fsign f64One = false := by decide
  cases hi : isInf x
  · have hx := isFinite_of_isNaN_isInf_eq_false hn hi
    rw [fmul_of_finite (by decide) hx, fmag_one, h1, Bool.false_bne, fround_fmag hx unitsPerOne_pos]
  · rw [fmul_of_isInf (by decide) hn (.inr hi), fmag_one, h1, Bool.false_bne, ← (isInf_iff_eq_finf x).1 hi]
    exact if_neg (by simp [unitsPerOne_pos.ne', fmag_ne_zero_of_isInf hi])

/-- `+0.0` is neutral but for `-0.0`. -/
theorem fadd_zero_left {x : F64} (hn : isNaN x = false) : fadd f64Zero x = if x = fzero true then f64Zero else x := by
  have hz : isFinite f64Zero = true := by decide
  by_cases h0 : fmag x = 0
  · rw [eq_fzero_of_fmag h0]
    cases fsign x <;> decide
  · have hne : x ≠ fzero true := by rintro rfl; exact h0 (fmag_fzero true)
    rw [if_neg hne]
    cases hi : isInf x
    · have hx := isFinite_of_isNaN_isInf_eq_false hn hi
      have h1 : fint f64Zero + fint x = fint x := by rw [show fint f64Zero = 0 by decide, Int.zero_add]
      have h2 : fint x ≠ 0 := by rwa [← Int.natAbs_ne_zero, natAbs_fint]
      have h3 : decide (fint x < 0) = fsign x := by rw [Bool.eq_iff_iff, decide_eq_true_eq, fint_neg_iff h0]
      rw [fadd_of_finite hz hx, h1, if_neg h2, h3, natAbs_fint, ← Nat.one_mul (fmag x), fround_fmag hx Nat.one_pos]
    · exact fadd_of_isInf_right hz hi

theorem convElem_one {q : List F64} {k : Nat} (hk : k < q.length) :
    convElem [f64One] q k = fadd f64Zero (fmul f64One (elem q k)) := by
  have hlo : k + 1 - q.length = 0 := by omega
  simp [convElem, hlo, fsum, elem]

/-- The one term of an element, added to `+0.0`. -/
theorem fadd_zero_fmul_one (x : F64) :
    fadd f64Zero (fmul f64One x) = if isNaN x then f64NaN else if x = fzero true then f64Zero else x := by
  split
  · next hn =>
    obtain ⟨-, -, hmul, -⟩ := arith_of_isNaN (a := f64One) (.inr hn)
    rw [hmul]; decide
  · next hn =>
    rw [Bool.not_eq_true] at hn
    rw [fmul_one_left hn, fadd_zero_left hn]

/-- Settles O46, element by element: each is a sum of one term. -/
theorem convolutionByOne : Obligations.ConvolutionByOne := by
  intro q _
  apply List.ext_getElem
  · simp
  · intro k _ hk
    rw [List.length_map] at hk
    have hel : elem q k = q[k] := by simp [elem, hk]
    simp only [conv, List.getElem_map, List.getElem_range, ← hel]
    exact (convElem_one hk).trans (fadd_zero_fmul_one _)

end Sys2Proof.Machine
end

section
/-! PROOFS. What every completion leaves in the status bits (60_exceptions.md R242, R244, R248). -/

namespace Sys2Proof.Machine

open Sys2Proof

theorem codeBits_eq_zero_iff (c : Code) : codeBits c = 0x00#8 ↔ c = .ok := by cases c <;> decide

theorem codeBits_toNat_le (c : Code) : (codeBits c).toNat ≤ 4 := by cases c <;> decide

/-- Every completion sets DONE, clears BUSY and leaves CTRL. -/
theorem complete_flags {s t : State} (h : complete s = .next t) : t.done = true ∧ t.busy = false ∧ t.ctrlIe = s.ctrlIe := by
  obtain ⟨c, -, rfl⟩ | ⟨i, e, -, -, -, -, rfl⟩ := complete_next h <;> exact ⟨rfl, rfl, rfl⟩

/-- ERR after a completion: set by a nonzero code, left alone by code 0x00. -/
theorem complete_err {s t : State} (h : complete s = .next t) : t.err = (s.err || t.errcode != 0x00#8) := by
  obtain ⟨c, hc, rfl⟩ | ⟨i, e, -, -, -, -, rfl⟩ := complete_next h
  · simp [codeBits_eq_zero_iff, hc]
  · simp [codeBits]

theorem complete_ovr {s t : State} (h : complete s = .next t) : t.ovr = s.ovr := by
  obtain ⟨c, -, rfl⟩ | ⟨i, e, -, -, -, -, rfl⟩ := complete_next h <;> rfl

end Sys2Proof.Machine
end

section
/-! PROOFS. What the host reads and writes at each offset (10_state.md R44-R63; 20_memory.md R97-R101, R115), and the interrupt line
(10_state.md R62). -/

namespace Sys2Proof.Machine

open Sys2Proof

/-! ### Values of the registers -/

theorem zero_append_eq_setWidth {n m : Nat} (x : BitVec m) : 0#n ++ x = x.setWidth (n + m) := by
  apply BitVec.eq_of_toNat_eq
  rw [toNat_append_eq_add, BitVec.toNat_setWidth_of_le (Nat.le_add_left m n), BitVec.toNat_ofNat, Nat.zero_mod, Nat.zero_mul,
    Nat.zero_add]

theorem and_not_eq_ite (a b : Bool) : (a && !b) = if b then false else a := by cases b <;> simp

/-- Bits 31:0 of a word, as the numbers of the model and as a slice. -/
theorem ofNat_field_zero (v : Word) (n : Nat) : BitVec.ofNat n (v.field 0 n) = v.extractLsb' 0 n := by
  rw [← toNat_extractLsb'_eq_field, BitVec.ofNat_toNat, BitVec.setWidth_eq]

theorem getLsbD_eq_of_div {v : Word} {k : Nat} {b : Bool} (h : v.toNat / 2 ^ k % 2 = b.toNat) : v.getLsbD k = b := by
  rw [BitVec.getLsbD, Nat.testBit_eq_decide_div_mod_eq, h]
  cases b <;> rfl

theorem extractLsb'_eq_of_div {v : Word} {k n : Nat} {x : BitVec n} (h : v.toNat / 2 ^ k % 2 ^ n = x.toNat) :
    v.extractLsb' k n = x :=
  BitVec.eq_of_toNat_eq ((toNat_extractLsb'_eq_field v k n).trans h)

/-- The fields of STATUS (10_state.md R50), read off its sum. -/
theorem status_fields (s : State) :
    s.status.getLsbD 0 = s.busy ∧ s.status.getLsbD 1 = s.done ∧ s.status.getLsbD 2 = s.err ∧
      s.status.getLsbD 3 = s.ovr ∧ s.status.getLsbD 4 = s.voiced ∧ s.status.extractLsb' 5 3 = 0#3 ∧
      s.status.extractLsb' 8 8 = s.errcode ∧ s.status.extractLsb' 16 48 = 0#48 := by
  have hb := s.busy.toNat_le
  have hd := s.done.toNat_le
  have he := s.err.toNat_le
  have ho := s.ovr.toNat_le
  have hv := s.voiced.toNat_le
  have h3 : (0#3).toNat = 0 := rfl
  have h48 : (0#48).toNat = 0 := rfl
  have hst := toNat_status s
  refine ⟨getLsbD_eq_of_div ?_, getLsbD_eq_of_div ?_, getLsbD_eq_of_div ?_, getLsbD_eq_of_div ?_, getLsbD_eq_of_div ?_,
    extractLsb'_eq_of_div ?_, extractLsb'_eq_of_div ?_, extractLsb'_eq_of_div ?_⟩ <;>
    rw [hst] <;> omega

/-! ### Registers -/

/-- A read of a register whose value is known. -/
theorem hread_reg_of_eq {s : State} {off : BitVec 20} {v : Word} (r : Reg) (h : off.toNat = offsetOf r) (hv : s.readReg r = v) :
    hread s 8 off = .next { s with reply := some (.read v .okay) } :=
  hv ▸ hread_reg r h

theorem readReg_ctrl (s : State) : s.readReg .ctrl = (BitVec.ofBool s.ctrlIe).zeroExtend 64 := zero_append_eq_setWidth _

theorem readReg_prngState (s : State) : s.readReg .prngState = s.prng.zeroExtend 64 := zero_append_eq_setWidth _

/-- Settles O14, one register at a time. -/
theorem registerReadsFollowTheMap : Obligations.RegisterReadsFollowTheMap := by
  refine ⟨fun s off v h => ?_, status_fields⟩
  obtain ⟨h, rfl⟩ | ⟨h, rfl⟩ | ⟨h, rfl⟩ | ⟨h, rfl⟩ | ⟨h, rfl⟩ | ⟨h, rfl⟩ | ⟨h, rfl⟩ | ⟨h, rfl⟩ | ⟨h, rfl⟩ | ⟨h, rfl⟩ |
    ⟨h, rfl⟩ | ⟨h, rfl⟩ := h
  · exact hread_reg .id h
  · exact hread_reg .hwcfg h
  · exact hread_reg_of_eq .ctrl h (readReg_ctrl s)
  · exact hread_reg .status h
  · exact hread_reg .cmd h
  · exact hread_reg .arg0 h
  · exact hread_reg .arg1 h
  · exact hread_reg .arg2 h
  · exact hread_reg .arg3 h
  · exact hread_reg .result0 h
  · exact hread_reg .result1 h
  · exact hread_reg_of_eq .prngState h (readReg_prngState s)

theorem clearStatus_eq (s : State) (v : Word) : s.clearStatus v = { s with
    done := if v.getLsbD 1 then false else s.done
    err := if v.getLsbD 2 then false else s.err
    ovr := if v.getLsbD 3 then false else s.ovr } := by
  simp only [State.clearStatus, and_not_eq_ite]

/-- A write to any register but PRNG_STATE is answered OKAY, BUSY or not. -/
theorem hwrite_reg_okay {s : State} {off : BitVec 20} (v : Word) (r : Reg) (h : off.toNat = offsetOf r) (hr : r ≠ .prngState) :
    hwrite s 8 off v = .next { s.writeReg v r with reply := some (.write .okay) } :=
  hwrite_reg r h fun _ => hr

theorem hwrite_prngState_busy {s : State} {off : BitVec 20} (v : Word) (h : off.toNat = offsetOf .prngState) (hb : s.busy = true) :
    hwrite s 8 off v = .next { s with reply := some (.write .error) } := by
  unfold hwrite
  rw [target_of_reg _ h]
  exact if_pos ⟨hb, rfl⟩

/-- Settles O16: the write is `clearStatus`. -/
theorem statusWriteClearsBits : Obligations.StatusWriteClearsBits := by
  intro s off v h
  rw [hwrite_reg_okay v .status h (by decide), State.writeReg, clearStatus_eq]

/-- Settles O17, by one write and one read at CTRL. -/
theorem ctrlWriteSetsInterruptEnable : Obligations.CtrlWriteSetsInterruptEnable := by
  refine ⟨rfl, by decide, fun s off v h => ⟨_, hwrite_reg_okay v .ctrl h (by decide), rfl, ?_⟩⟩
  refine hread_reg_of_eq .ctrl h ?_
  rw [readReg_ctrl, BitVec.and_one_eq_setWidth_ofBool_getLsbD]
  rfl

/-- Settles O18, one register at a time. -/
theorem otherRegisterWrites : Obligations.OtherRegisterWrites := by
  intro s off v okay
  refine ⟨fun h => hwrite_reg_okay v .arg0 h (by decide), fun h => hwrite_reg_okay v .arg1 h (by decide),
    fun h => hwrite_reg_okay v .arg2 h (by decide), fun h => hwrite_reg_okay v .arg3 h (by decide), fun h hb => ?_,
    fun h hb => hwrite_prngState_busy v h hb, ?_⟩
  · have hidle : s.busy = true → Reg.prngState ≠ .prngState := by simp [hb]
    exact ofNat_field_zero v 32 ▸ hwrite_reg .prngState h hidle
  · rintro (h | h | h | h)
    · exact hwrite_reg_okay v .id h (by decide)
    · exact hwrite_reg_okay v .hwcfg h (by decide)
    · exact hwrite_reg_okay v .result0 h (by decide)
    · exact hwrite_reg_okay v .result1 h (by decide)

/-! ### The fields a register write writes -/

theorem writeCmd_of_idle {s : State} (hb : s.busy = false) (w : Word) : s.writeCmd w = s.accept w := by simp [State.writeCmd, hb]

theorem writeCmd_of_busy {s : State} (hb : s.busy = true) (w : Word) : s.writeCmd w = { s with ovr := true } := by
  simp [State.writeCmd, hb]

theorem writeReg_busy (s : State) (v : Word) (r : Reg) : (s.writeReg v r).busy = (s.busy || r == .cmd) := by
  cases hb : s.busy <;> cases r <;> simp [State.writeReg, State.writeCmd, hb]

theorem writeReg_err (s : State) (v : Word) (r : Reg) :
    (s.writeReg v r).err = if r = .status then s.err && !v.getLsbD 2 else s.err := by
  cases r <;> simp [State.writeReg, State.writeCmd, apply_ite State.err]

theorem writeReg_ovr (s : State) (v : Word) (r : Reg) :
    (s.writeReg v r).ovr = if r = .status then s.ovr && !v.getLsbD 3 else if r = .cmd then s.ovr || s.busy else s.ovr := by
  cases hb : s.busy <;> cases r <;> simp [State.writeReg, State.writeCmd, hb]

theorem writeReg_prng (s : State) (v : Word) (r : Reg) :
    (s.writeReg v r).prng = if r = .prngState then v.extractLsb' 0 32 else s.prng := by
  cases r <;> simp [State.writeReg, State.writeCmd, ofNat_field_zero, apply_ite State.prng]

/-! ### The DMEM window -/

section
variable {s : State} {off : BitVec 20} {i : Nat}

theorem hread_dmem_written {w : Word} (h : off.toNat = 0x80000 + 8 * i) (hi : i < s.dmemWords) (hb : s.busy = false)
    (hw : s.dmem.readWord i = some w) : hread s 8 off = .next (s.answer (.read w .okay)) := by
  simp [hread, target_of_dmem h hi, hb, hw]

theorem hread_dmem_unwritten (h : off.toNat = 0x80000 + 8 * i) (hi : i < s.dmemWords) (hb : s.busy = false)
    (hw : s.dmem.readWord i = none) : hread s 8 off = .fault .uninit := by
  simp [hread, target_of_dmem h hi, hb, hw]

theorem hwrite_dmem (v : Word) (h : off.toNat = 0x80000 + 8 * i) (hi : i < s.dmemWords) (hb : s.busy = false) :
    hwrite s 8 off v = .next ({ s with dmem := s.dmem.writeWord i v }.answer (.write .okay)) := by
  simp [hwrite, target_of_dmem h hi, hb]

end

/-- Settles O19: DMEM after the write is `writeWord`, whose laws are those of Laws/Memory.lean. -/
theorem dmemWriteReadsBack : Obligations.DmemWriteReadsBack := by
  intro s off i v hb hi h
  have hback := Mem.readWord_writeWord s.dmem i v
  exact ⟨⟨_, hwrite_dmem v h hi hb, rfl, hback, fun a ha => Mem.read_writeWord_outside _ _ _ _ ha, hread_dmem_written h hi hb hback⟩,
    fun w hw => hread_dmem_written h hi hb hw, hread_dmem_unwritten h hi hb⟩

/-! ### The interrupt line -/

theorem irq_accept (s : State) (w : Word) : (s.accept w).irq = false := Bool.and_false _

theorem irq_clearStatus (s : State) (v : Word) : (s.clearStatus v).irq = (s.irq && !v.getLsbD 1) := (Bool.and_assoc ..).symm

/-- Settles O20: `irq` is IE and DONE, after each event that writes one of them. -/
theorem interruptLineFollowsDone : Obligations.InterruptLineFollowsDone := by
  refine ⟨fun s t _ hc => ?_, fun s t off v hw => ?_⟩
  · obtain ⟨hdone, -, hie⟩ := complete_flags hc
    rw [State.irq, hdone, hie, Bool.and_true]
  · have written (r : Reg) (h : off.toNat = offsetOf r) (hr : r ≠ .prngState) : t.irq = (s.writeReg v r).irq := by
      rw [hwrite_reg_okay v r h hr] at hw
      cases hw
      rfl
    refine ⟨fun h hb => ?_, fun h hb => ?_, fun h => ?_, fun h => written .ctrl h (by decide)⟩
    · rw [written .cmd h (by decide), State.writeReg, writeCmd_of_idle hb, irq_accept]
    · rw [written .cmd h (by decide), State.writeReg, writeCmd_of_busy hb]
      rfl
    · rw [written .status h (by decide), State.writeReg, irq_clearStatus]

end Sys2Proof.Machine
end

section
/-! PROOFS. The invariant of memory, status, results and latch, kept by each operation of a step (10_state.md R42, R51-R60). -/

namespace Sys2Proof.Machine

open Sys2Proof

namespace State.Inv

variable {s : State}

/-- The invariant looks at neither the inputs to come nor the port's answer. -/
theorem scheduled (h : s.Inv) (l : List Event) : State.Inv { s with schedule := l } :=
  ⟨h.legalWords, h.memory, h.whole, h.status, h.result, h.latch⟩

theorem answered (h : s.Inv) (r : Reply) : (s.answer r).Inv :=
  ⟨h.legalWords, h.memory, h.whole, h.status, h.result, h.latch⟩

theorem storedWord (h : s.Inv) {i : Nat} (hi : i < s.dmemWords) (v : Word) :
    State.Inv { s with dmem := s.dmem.writeWord i v } :=
  ⟨h.legalWords, Mem.wf_writeWord h.memory i v, Mem.whole_writeWord h.whole hi v, h.status, h.result, h.latch⟩

/-- Acceptance keeps the previous results, clears DONE and copies the word it shows in CMD into the latch. -/
theorem accepted (h : s.Inv) (w : Word) : (s.accept w).Inv := by
  obtain ⟨-, hcode, herr, hvoiced⟩ := h.status
  exact ⟨h.legalWords, h.memory, h.whole, ⟨fun _ => rfl, hcode, herr, hvoiced⟩, h.result, fun _ => rfl⟩

theorem clearedStatus (h : s.Inv) (v : Word) : (s.clearStatus v).Inv := by
  obtain ⟨hdone, hcode, herr, hvoiced⟩ := h.status
  exact ⟨h.legalWords, h.memory, h.whole, ⟨fun hb => by simp [hdone hb], hcode, herr, hvoiced⟩, h.result, h.latch⟩

theorem wroteCmd (h : s.Inv) (w : Word) : (s.writeCmd w).Inv := by
  unfold State.writeCmd
  split
  · exact ⟨h.legalWords, h.memory, h.whole, h.status, h.result, h.latch⟩
  · exact h.accepted w

theorem wroteReg (h : s.Inv) (v : Word) (r : Reg) : (s.writeReg v r).Inv := by
  cases r with
  | status => exact h.clearedStatus v
  | cmd => exact h.wroteCmd v
  | id | hwcfg | result0 | result1 => exact h
  | ctrl | arg0 | arg1 | arg2 | arg3 | prngState =>
    exact ⟨h.legalWords, h.memory, h.whole, h.status, h.result, h.latch⟩

theorem hostWrote (h : s.Inv) {t : State} {size : Nat} {off : BitVec 20} {v : Word} (hw : hwrite s size off v = .next t) :
    t.Inv := by
  obtain rfl | ⟨r, -, -, -, rfl⟩ | ⟨i, -, -, hi, -, rfl⟩ := hwrite_next hw
  · exact h.answered _
  · exact (h.wroteReg v r).answered _
  · exact (h.storedWord hi v).answered _

theorem wasReset (h : s.Inv) : s.applyReset.Inv :=
  ⟨h.legalWords, Mem.wf_nil, fun _ ha => absurd ha Bool.false_ne_true,
    ⟨fun hb => absurd hb Bool.false_ne_true, Nat.zero_le _, fun _ => ⟨rfl, rfl, rfl⟩, fun hv => absurd hv Bool.false_ne_true⟩,
    Nat.zero_le _, fun hb => absurd hb Bool.false_ne_true⟩

theorem completedError (h : s.Inv) (c : Code) : (s.completeError c).Inv :=
  ⟨h.legalWords, h.memory, h.whole,
    ⟨fun hb => absurd hb Bool.false_ne_true, codeBits_toNat_le c, fun _ => ⟨rfl, rfl, rfl⟩,
      fun hv => absurd hv Bool.false_ne_true⟩,
    Nat.zero_le _, fun hb => absurd hb Bool.false_ne_true⟩

/-- A successful completion stores one window inside DMEM, whose length it reports, or nothing. -/
theorem completedOk (h : s.Inv) {i : Instr} {e : Effect} (ha : argumentInvalid i s.lat = false)
    (hr : rangeInvalid s.dmemWords i s.lat = false) (he : effectOf i s = some e) : (s.completeOk e).Inv := by
  obtain ⟨hwindow, hvoiced⟩ := effectOf_shape ha hr he
  have hr0 : e.r0 ≤ s.dmemWords := by
    obtain ⟨ws, -, h1, h2⟩ | ⟨-, h1⟩ := hwindow <;> omega
  have hwhole : (s.completeOk e).DmemWhole := by
    rw [State.DmemWhole, State.completeOk_dmem, State.completeOk_dmemWords]
    obtain ⟨ws, h1, -, h2⟩ | ⟨h1, -⟩ := hwindow <;> rw [h1]
    · exact Mem.whole_writeWords ws h.whole h2
    · exact h.whole
  exact ⟨h.legalWords, Mem.wf_writeAll _ h.memory, hwhole,
    ⟨fun hb => absurd hb Bool.false_ne_true, codeBits_toNat_le .ok, fun hc => absurd rfl hc,
      fun hv => congrArg (BitVec.ofNat 64) (hvoiced hv)⟩,
    (Nat.mod_le _ _).trans hr0, fun hb => absurd hb Bool.false_ne_true⟩

theorem completed (h : s.Inv) {t : State} (hc : complete s = .next t) : t.Inv := by
  obtain ⟨c, -, rfl⟩ | ⟨i, e, -, ha, hr, he, rfl⟩ := complete_next hc
  · exact h.completedError c
  · exact h.completedOk ha hr he

theorem coreTurned (h : s.Inv) {u : State} (hu : CoreMoves s u) : u.Inv := by
  obtain ⟨-, rfl⟩ | ⟨rest, -, rfl⟩ := hu
  · exact h
  · exact h.scheduled rest

end State.Inv

/-- Settles O40, by the cases of a step: each operation keeps the invariant. -/
theorem stepKeepsTheInvariant : Obligations.StepKeepsTheInvariant := by
  intro s t h hstep
  obtain ⟨u, hu, -, rfl⟩ | ⟨u, hu, -, hc⟩ | ⟨size, off, rest, -, r, rfl⟩ | ⟨size, off, v, rest, -, hw⟩ | ⟨rest, -, rfl⟩ :=
    step_next hstep
  · exact h.coreTurned hu
  · exact (h.coreTurned hu).completed hc
  · exact (h.scheduled rest).answered r
  · exact (h.scheduled rest).hostWrote hw
  · exact (h.scheduled rest).wasReset

end Sys2Proof.Machine
end

section
/-! PROOFS. Which steps write BUSY, ERR and OVR (10_state.md R51, R53, R54). -/

namespace Sys2Proof.Machine

open Sys2Proof

/-! ### The step that a schedule fixes -/

theorem step_of_coreMoves {s u : State} (hu : CoreMoves s u) (hb : s.busy = true) : step s = complete u := by
  obtain ⟨hs, rfl⟩ | ⟨rest, hs, rfl⟩ := hu <;> simp [step, hs, handle, coreTurn, hb]

theorem exists_coreMoves {s : State} (h : s.schedule = [] ∨ ∃ rest, s.schedule = .coreTurn :: rest) : ∃ u, CoreMoves s u := by
  obtain h | ⟨rest, h⟩ := h
  · exact ⟨s, .inl ⟨h, rfl⟩⟩
  · exact ⟨_, .inr ⟨rest, h, rfl⟩⟩

theorem step_of_rst {s : State} {rest : List Event} (h : s.schedule = .rst :: rest) :
    step s = .next ({ s with schedule := rest } : State).applyReset := by
  simp [step, h, handle]

/-- A step whose input is a write to a register other than PRNG_STATE. -/
theorem step_of_hwrite_reg {s : State} {off : BitVec 20} {v : Word} {rest : List Event} (h : s.schedule = .hwrite 8 off v :: rest)
    (r : Reg) (hoff : off.toNat = offsetOf r) (hr : r ≠ .prngState) :
    step s = .next ((State.writeReg { s with schedule := rest } v r).answer (.write .okay)) := by
  simp only [step, h, handle]
  exact hwrite_reg_okay v r hoff hr

/-! ### Which steps change a register -/

/-- What a step can do to the fields other than DMEM, the schedule and the port's answer: nothing, a completion, a write to one
register, or reset. -/
inductive RegisterChange (s t : State) : Prop
  | kept (frame : t = { s with dmem := t.dmem, schedule := t.schedule, reply := t.reply })
  | completed (u : State) (turn : CoreMoves s u) (busy : s.busy = true) (result : complete u = .next t)
  | written (off : BitVec 20) (v : Word) (rest : List Event) (r : Reg) (input : s.schedule = .hwrite 8 off v :: rest)
      (offset : off.toNat = offsetOf r) (allowed : s.busy = true → r ≠ .prngState)
      (result : t = (State.writeReg { s with schedule := rest } v r).answer (.write .okay))
  | reset (rest : List Event) (input : s.schedule = .rst :: rest) (result : t = State.applyReset { s with schedule := rest })

theorem step_registerChange {s t : State} (h : step s = .next t) : RegisterChange s t := by
  obtain ⟨u, hu, -, rfl⟩ | ⟨u, hu, hb, hc⟩ | ⟨size, off, rest, -, r, rfl⟩ | ⟨size, off, v, rest, hs, hw⟩ | ⟨rest, hs, ht⟩ :=
    step_next h
  · obtain ⟨hframe, -⟩ := hu.frame
    exact .kept (by rw [hframe])
  · exact .completed u hu hb hc
  · exact .kept rfl
  · obtain rfl | ⟨r, rfl, hoff, hr, ht⟩ | ⟨i, -, -, -, -, rfl⟩ := hwrite_next hw
    · exact .kept rfl
    · exact .written off v rest r hs hoff hr ht
    · exact .kept rfl
  · exact .reset rest hs ht

/-- The step is a completion: the block is busy and the next turn is the core's. -/
def CompletionStep (s : State) : Prop := s.busy = true ∧ (s.schedule = [] ∨ ∃ rest, s.schedule = .coreTurn :: rest)

/-- A completion step is the completion of a state that differs in the schedule alone. -/
theorem CompletionStep.exists_complete {s t : State} (hm : CompletionStep s) (h : step s = .next t) :
    ∃ u, u = { s with schedule := u.schedule } ∧ complete u = .next t := by
  obtain ⟨hb, hturn⟩ := hm
  obtain ⟨u, hu⟩ := exists_coreMoves hturn
  exact ⟨u, hu.frame.1, (step_of_coreMoves hu hb).symm.trans h⟩

section
variable {s t : State}

/-! ### BUSY -/

/-- A step's effect on BUSY (10_state.md R51). -/
theorem step_busy (h : step s = .next t) :
    t.busy = s.busy ∨ (CompletionStep s ∧ t.busy = false) ∨
      (∃ off v rest, off.toNat = 0x20 ∧ s.schedule = .hwrite 8 off v :: rest ∧ t.busy = true ∧
        (s.busy = false → t.cmd = v ∧ t.lat.cmd = v)) ∨
      ((∃ rest, s.schedule = .rst :: rest) ∧ t.busy = false) := by
  cases step_registerChange h with
  | kept frame => exact .inl (congrArg State.busy frame :)
  | completed u turn busy result => exact .inr (.inl ⟨⟨busy, turn.frame.2⟩, (complete_flags result).2.1⟩)
  | reset rest input result => exact .inr (.inr (.inr ⟨⟨rest, input⟩, result ▸ rfl⟩))
  | written off v rest r input offset _ result =>
    subst result
    by_cases hr : r = .cmd
    · subst hr
      exact .inr (.inr (.inl ⟨off, v, rest, offset, input, by simp [writeReg_busy],
        fun hb => by simp [State.writeReg, writeCmd_of_idle, hb]⟩))
    · exact .inl (by simp [writeReg_busy, hr])

/-! ### ERR -/

theorem CompletionStep.err (hm : CompletionStep s) (h : step s = .next t) : t.err = (s.err || t.errcode != 0x00#8) := by
  obtain ⟨u, hu, hc⟩ := hm.exists_complete h
  rw [complete_err hc, hu]

/-- A step's effect on ERR (10_state.md R53). -/
theorem step_err (h : step s = .next t) :
    t.err = s.err ∨ (CompletionStep s ∧ t.err = (s.err || t.errcode != 0x00#8)) ∨
      (∃ off v rest, off.toNat = 0x18 ∧ s.schedule = .hwrite 8 off v :: rest ∧ t.err = (s.err && !v.getLsbD 2)) ∨
      ((∃ rest, s.schedule = .rst :: rest) ∧ t.err = false) := by
  cases step_registerChange h with
  | kept frame => exact .inl (congrArg State.err frame :)
  | completed u turn busy _ =>
    have hm : CompletionStep s := ⟨busy, turn.frame.2⟩
    exact .inr (.inl ⟨hm, hm.err h⟩)
  | reset rest input result => exact .inr (.inr (.inr ⟨⟨rest, input⟩, result ▸ rfl⟩))
  | written off v rest r input offset _ result =>
    subst result
    by_cases hr : r = .status
    · subst hr
      exact .inr (.inr (.inl ⟨off, v, rest, offset, input, rfl⟩))
    · exact .inl (by simp [writeReg_err, hr])

/-! ### OVR -/

/-- A step's effect on OVR (10_state.md R54). -/
theorem step_ovr (h : step s = .next t) :
    t.ovr = s.ovr ∨
      (∃ off v rest, off.toNat = 0x20 ∧ s.schedule = .hwrite 8 off v :: rest ∧ t.ovr = (s.ovr || s.busy)) ∨
      (∃ off v rest, off.toNat = 0x18 ∧ s.schedule = .hwrite 8 off v :: rest ∧ t.ovr = (s.ovr && !v.getLsbD 3)) ∨
      ((∃ rest, s.schedule = .rst :: rest) ∧ t.ovr = false) := by
  cases step_registerChange h with
  | kept frame => exact .inl (congrArg State.ovr frame :)
  | completed u turn _ result => exact .inl ((complete_ovr result).trans (congrArg State.ovr turn.frame.1 :))
  | reset rest input result => exact .inr (.inr (.inr ⟨⟨rest, input⟩, result ▸ rfl⟩))
  | written off v rest r input offset _ result =>
    subst result
    by_cases hc : r = .cmd
    · subst hc
      exact .inr (.inl ⟨off, v, rest, offset, input, writeReg_ovr _ v .cmd⟩)
    · by_cases hr : r = .status
      · subst hr
        exact .inr (.inr (.inl ⟨off, v, rest, offset, input, rfl⟩))
      · exact .inl (by simp [writeReg_ovr, hc, hr])

end

/-- Settles O31, by what a step does to BUSY, and by the step each of its three writers is. -/
theorem busySetByAcceptanceClearedByCompletion : Obligations.BusySetByAcceptanceClearedByCompletion := by
  intro s t h
  refine ⟨fun hs ht => ?_, fun hs ht => ?_, fun hs hturn => ?_, fun off v rest _ hoff hsch => ?_, fun rest hsch => ?_⟩
  · obtain heq | ⟨⟨hb, -⟩, -⟩ | ⟨off, v, rest, hoff, hsch, -, hlatch⟩ | ⟨-, h0⟩ := step_busy h
    · simp [heq, hs] at ht
    · simp [hs] at hb
    · exact ⟨off, v, rest, hoff, hsch, hlatch hs⟩
    · simp [h0] at ht
  · obtain heq | ⟨⟨-, hturn⟩, -⟩ | ⟨_, _, _, -, -, hset, -⟩ | ⟨hrst, -⟩ := step_busy h
    · simp [heq, hs] at ht
    · exact or_assoc.1 (.inl hturn)
    · simp [hset] at ht
    · exact .inr (.inr hrst)
  · obtain ⟨u, -, hc⟩ := CompletionStep.exists_complete ⟨hs, hturn⟩ h
    exact (complete_flags hc).2.1
  · rw [step_of_hwrite_reg hsch .cmd hoff (by decide)] at h
    cases h
    simp [writeReg_busy]
  · rw [step_of_rst hsch] at h
    cases h
    rfl

/-- Settles O32, by what a step does to ERR. -/
theorem errIsSticky : Obligations.ErrIsSticky := by
  intro s t h coreMoves
  refine ⟨fun hs ht => ?_, fun hs ht => ?_, fun (hm : CompletionStep s) hc => ?_, fun (hm : CompletionStep s) hc => ?_⟩
  · obtain heq | ⟨-, hset⟩ | ⟨off, v, rest, hoff, hsch, hclear⟩ | ⟨hrst, -⟩ := step_err h
    · simp [heq, hs] at ht
    · simp [hset, hs] at ht
    · exact .inr ⟨off, v, rest, hoff, by simpa [hs, ht] using hclear, hsch⟩
    · exact .inl hrst
  · obtain heq | ⟨hm, hset⟩ | ⟨off, v, rest, -, -, hclear⟩ | ⟨-, h0⟩ := step_err h
    · simp [heq, hs] at ht
    · exact ⟨hm, by simpa [hs, ht] using hset⟩
    · simp [hclear, hs] at ht
    · simp [h0] at ht
  · simp [hm.err h, hc]
  · simp [hm.err h, hc]

/-- Settles O33, by what a step does to OVR. -/
theorem ovrIsSticky : Obligations.OvrIsSticky := by
  intro s t h
  refine ⟨fun hs ht => ?_, fun hs ht => ?_, fun off v rest hb hoff hsch => ?_⟩
  · obtain heq | ⟨_, _, _, -, -, hset⟩ | ⟨off, v, rest, hoff, hsch, hclear⟩ | ⟨hrst, -⟩ := step_ovr h
    · simp [heq, hs] at ht
    · simp [hset, hs] at ht
    · exact .inr ⟨off, v, rest, hoff, by simpa [hs, ht] using hclear, hsch⟩
    · exact .inl hrst
  · obtain heq | ⟨off, v, rest, hoff, hsch, hset⟩ | ⟨_, _, _, -, -, hclear⟩ | ⟨-, h0⟩ := step_ovr h
    · simp [heq, hs] at ht
    · exact ⟨by simpa [hs, ht] using hset, off, v, rest, hoff, hsch⟩
    · simp [hclear, hs] at ht
    · simp [h0] at ht
  · rw [step_of_hwrite_reg hsch .cmd hoff (by decide)] at h
    cases h
    simp [writeReg_ovr, hb]

end Sys2Proof.Machine
end

section
/-! PROOFS. What a completion writes, and from what (10_state.md R55, R63, R66; 20_memory.md R114; 60_exceptions.md R242, R248). -/

namespace Sys2Proof.Machine

open Sys2Proof

/-! ### VOICED and PRNG_STATE in the effect of a command -/

theorem yinResult_voiced (dst : Nat) (r : Option (Nat × F64)) : (yinResult dst r).voiced = r.isSome := by cases r <;> rfl

theorem yinResult_prng (dst : Nat) (r : Option (Nat × F64)) : (yinResult dst r).prng = none := by cases r <;> rfl

/-- The words that run the noise generator (43_prng.md R227). -/
def generates : Decoded → Bool
  | .illegal => false
  | .reserved => false
  | .cmd (.lpc _ _ _) => false
  | .cmd (.reson _ _ _) => false
  | .cmd (.pconv _ _ _) => false
  | .cmd (.yin _ _ _) => false
  | .cmd (.noise _ _ _) => true
  | .cmd (.noisec _ _ _) => true

theorem generates_iff (d : Decoded) :
    generates d = true ↔ ∃ src dst n, d = .cmd (.noise src dst n) ∨ d = .cmd (.noisec src dst n) := by
  unfold generates
  split <;> simp

/-- `i` is a YIN whose samples are written and give a pitch estimate (42_yin.md R200). -/
def FindsEstimate (i : Instr) (s : State) : Prop :=
  ∃ src dst n fr, i = .yin src dst n ∧ s.dmem.readWords src n = some fr ∧
    (yinEstimate fr s.lat.arg.arg0 s.lat.arg.arg1 s.lat.arg.arg2 s.lat.arg.arg3).isSome = true

/-- An effect carries a generator state for NOISE and NOISEC, and VOICED for a YIN that found an estimate (42_yin.md R206, R208;
43_prng.md R227). -/
theorem effectOf_prng_voiced {i : Instr} {s : State} {e : Effect} (he : effectOf i s = some e) :
    e.prng.isSome = generates (.cmd i) ∧ (e.voiced = true ↔ FindsEstimate i s) := by
  cases i with
  | lpc src dst n =>
    obtain ⟨x, -, rfl⟩ := Option.map_eq_some_iff.1 he
    simp [generates, FindsEstimate]
  | reson src dst n => cases he; simp [generates, FindsEstimate]
  | pconv src dst n =>
    simp only [effectOf, pconvEffect] at he
    split at he
    · cases he
    · obtain ⟨q, -, rfl⟩ := Option.map_eq_some_iff.1 he
      simp [generates, FindsEstimate]
  | yin src dst n =>
    obtain ⟨fr, hfr, rfl⟩ := Option.map_eq_some_iff.1 he
    rw [yinResult_prng, yinResult_voiced]
    refine ⟨rfl, fun h => ⟨src, dst, n, fr, rfl, hfr, h⟩, ?_⟩
    rintro ⟨_, _, _, fr', hi, hfr', h⟩
    cases hi
    cases hfr.symm.trans hfr'
    exact h
  | noise src dst n => cases he; simp [generates, FindsEstimate]
  | noisec src dst n => cases he; simp [generates, FindsEstimate]

/-- Settles O34: a completion takes VOICED from its effect. -/
theorem voicedExactlyForVoicedYin : Obligations.VoicedExactlyForVoicedYin := by
  refine ⟨fun s t h => ?_, fun s t off w hoff hb hw => ?_⟩
  · obtain ⟨c, hc, rfl⟩ | ⟨i, e, hi, -, -, he, rfl⟩ := complete_next h
    · simp [codeBits_eq_zero_iff, hc]
    · rw [hi, State.completeOk_voiced, (effectOf_prng_voiced he).2, FindsEstimate]
      simp [codeBits]
  · rw [hwrite_reg_okay w .cmd hoff (by decide), State.writeReg, writeCmd_of_idle hb] at hw
    cases hw
    rfl

/-- A completion that changes PRNG_STATE is that of NOISE or NOISEC, with code 0x00. -/
theorem complete_prng {s t : State} (h : complete s = .next t) (hne : t.prng ≠ s.prng) :
    t.errcode = 0x00#8 ∧ generates (decode s.lat.cmd) = true := by
  obtain ⟨c, -, rfl⟩ | ⟨i, e, hi, -, -, he, rfl⟩ := complete_next h
  · exact absurd rfl hne
  · refine ⟨rfl, ?_⟩
    rw [hi, ← (effectOf_prng_voiced he).1]
    cases hp : e.prng with
    | none => simp [hp] at hne
    | some p => rfl

/-- Settles O35, by the cases of a step that changes a register. -/
theorem prngStateHasThreeWriters : Obligations.PrngStateHasThreeWriters := by
  intro s t h hne
  cases step_registerChange h with
  | kept frame => exact absurd (congrArg State.prng frame :) hne
  | reset rest input _ => exact .inl ⟨rest, input⟩
  | written off v rest r input offset allowed result =>
    subst result
    by_cases hr : r = .prngState
    · subst hr
      have hb : s.busy = false := Bool.eq_false_iff.2 fun hb => allowed hb rfl
      exact .inr (.inl ⟨hb, off, v, rest, offset, input, writeReg_prng { s with schedule := rest } v .prngState⟩)
    · simp [writeReg_prng, hr] at hne
  | completed u turn busy result =>
    obtain ⟨hu, hturn⟩ := turn.frame
    rw [show s.prng = u.prng by rw [hu]] at hne
    obtain ⟨hcode, hg⟩ := complete_prng result hne
    rw [hu] at hg
    exact .inr (.inr ⟨busy, hturn, hcode, (generates_iff _).1 hg⟩)

/-! ### A completion reads the latch, DMEM and DMEM_WORDS -/

/-- The state `u` with the fields a completion writes taken from `t`, PRNG_STATE only from a generator's success. -/
def takeCompletion (u : State) (generator : Bool) (t : State) : State :=
  { u with
    dmem := t.dmem, result0 := t.result0, result1 := t.result1, voiced := t.voiced, errcode := t.errcode,
    err := u.err || t.errcode != 0x00#8, prng := if generator && t.errcode == 0x00#8 then t.prng else u.prng,
    done := true, busy := false }

section
variable {s u : State}

theorem completeError_eq_takeCompletion (hm : u.dmem = s.dmem) {c : Code} (hc : c ≠ .ok) (generator : Bool) :
    u.completeError c = takeCompletion u generator (s.completeError c) := by
  simp [takeCompletion, State.completeError, hm, codeBits_eq_zero_iff, hc]

theorem completeOk_eq_takeCompletion (hm : u.dmem = s.dmem) (e : Effect) :
    u.completeOk e = takeCompletion u e.prng.isSome (s.completeOk e) := by
  cases hp : e.prng <;> simp [takeCompletion, State.completeOk, codeBits, hm, hp]

theorem effectOf_congr (hl : u.lat = s.lat) (hm : u.dmem = s.dmem) (i : Instr) : effectOf i u = effectOf i s := by
  cases i <;> simp only [effectOf, lpcEffect, resonEffect, pconvEffect, yinEffect, hl, hm]

/-- Two states that agree on what the checks read complete alike, up to what `f` overwrites. -/
theorem checkAndComplete_congr {f : State → State} {i : Instr} {run : Option Effect} (hl : u.lat = s.lat)
    (hw : u.dmemWords = s.dmemWords) (herr : ∀ c, c ≠ .ok → u.completeError c = f (s.completeError c))
    (hok : ∀ e, run = some e → u.completeOk e = f (s.completeOk e)) :
    checkAndComplete i u run = mapNext f (checkAndComplete i s run) := by
  unfold checkAndComplete
  rw [hl, hw]
  split
  · exact congrArg _ (herr .argument (by decide))
  · split
    · exact congrArg _ (herr .range (by decide))
    · cases run with
      | none => rfl
      | some e => exact congrArg _ (hok e rfl)

theorem exec_congr (hl : u.lat = s.lat) (hm : u.dmem = s.dmem) (hw : u.dmemWords = s.dmemWords) (i : Instr) :
    exec i u = mapNext (takeCompletion u (generates (.cmd i))) (exec i s) := by
  rw [exec_eq, exec_eq, effectOf_congr hl hm]
  refine checkAndComplete_congr hl hw (fun c hc => completeError_eq_takeCompletion hm hc _) fun e he => ?_
  rw [← (effectOf_prng_voiced he).1]
  exact completeOk_eq_takeCompletion hm e

/-- A malformed word completes with an error, whatever the state, and a command as `exec` does. -/
theorem complete_congr (hl : u.lat = s.lat) (hm : u.dmem = s.dmem) (hw : u.dmemWords = s.dmemWords) :
    complete u = mapNext (takeCompletion u (generates (decode s.lat.cmd))) (complete s) := by
  unfold complete
  rw [hl]
  cases decode s.lat.cmd with
  | illegal => exact congrArg _ (completeError_eq_takeCompletion hm (by decide) _)
  | reserved => exact congrArg _ (completeError_eq_takeCompletion hm (by decide) _)
  | cmd i => exact exec_congr hl hm hw i

end

/-- Settles O37: checks, effect and completion read nothing else. -/
theorem completionReadsOnlyTheLatch : Obligations.CompletionReadsOnlyTheLatch :=
  fun _ _ hl hm hw => complete_congr hl hm hw

end Sys2Proof.Machine
end

section
/-! PROOFS. Host transactions: their order, the ERROR response and the reads without side effect (20_memory.md R93, R107-R109), and
what a running command holds against them (R101, R105, R114). -/

namespace Sys2Proof.Machine

open Sys2Proof

/-! ### The next input -/

theorem step_of_schedule {s : State} {e : Event} {rest : List Event} (h : s.schedule = e :: rest) :
    step s = handle e { s with schedule := rest } := by
  rw [step, h]

/-- Settles O6: the input is the head of the schedule. -/
theorem stepTakesInputsInOrder : Obligations.StepTakesInputsInOrder :=
  fun _ _ _ _ _ => ⟨step_of_schedule, step_of_schedule⟩

/-! ### Reads and ERROR responses -/

/-- The two answers a read can end with: ERROR with data 0x0, or OKAY (20_memory.md R93, R97, R99). -/
theorem hread_answers {s t : State} {size : Nat} {off : BitVec 20} (h : hread s size off = .next t) :
    t = s.answer (.read 0 .error) ∨ ∃ d, t = s.answer (.read d .okay) := by
  unfold hread at h
  split at h
  · exact .inl (Host.Outcome.next.inj h).symm
  · exact .inr ⟨_, (Host.Outcome.next.inj h).symm⟩
  · split at h
    · exact .inl (Host.Outcome.next.inj h).symm
    · split at h
      · cases h
      · exact .inr ⟨_, (Host.Outcome.next.inj h).symm⟩

/-- A read does not look at the port's last answer, and overwrites it. -/
theorem hread_answer (s : State) (r : Reply) (size : Nat) (off : BitVec 20) : hread (s.answer r) size off = hread s size off := rfl

/-- Settles O11: of what a transaction can do, only turning it away is answered with ERROR. -/
theorem busErrorChangesNothing : Obligations.BusErrorChangesNothing := by
  refine fun s t size off => ⟨fun d h he => ?_, fun v h he => ?_⟩
  · obtain rfl | ⟨d', rfl⟩ := hread_answers h
    · cases he
      exact ⟨rfl, rfl⟩
    · cases he
  · obtain rfl | ⟨r, -, -, -, rfl⟩ | ⟨i, -, -, -, -, rfl⟩ := hwrite_next h
    · rfl
    · cases he
    · cases he

/-- Settles O13: a read changes the answer alone, and no read looks at it. -/
theorem hostReadsHaveNoSideEffect : Obligations.HostReadsHaveNoSideEffect := by
  intro s t size off h
  obtain ⟨r, rfl⟩ := hread_next h
  exact ⟨rfl, (hread_answer s r size off).trans h⟩

/-! ### What a running command holds -/

/-- The frame of a step of a running command: only CTRL.IE, DONE, ERR, OVR, the live ARG registers, the schedule and the port's answer
may differ. -/
def HostChangesOnly (s t : State) : Prop :=
  t = { s with
    ctrlIe := t.ctrlIe, done := t.done, err := t.err, ovr := t.ovr, arg := t.arg, schedule := t.schedule, reply := t.reply }

theorem hostChangesOnly_writeReg {s : State} (hb : s.busy = true) (v : Word) {r : Reg} (hr : r ≠ .prngState) :
    HostChangesOnly s (s.writeReg v r) := by
  cases r with
  | prngState => exact absurd rfl hr
  | cmd =>
    rw [State.writeReg, writeCmd_of_busy hb]
    rfl
  | id | hwcfg | ctrl | status | arg0 | arg1 | arg2 | arg3 | result0 | result1 => rfl

/-- While BUSY, DMEM and PRNG_STATE are closed to the host and the CMD write is dropped (20_memory.md R101; 60_exceptions.md R251). -/
theorem hostChangesOnly_hwrite {s t : State} {size : Nat} {off : BitVec 20} {v : Word} (hb : s.busy = true)
    (h : hwrite s size off v = .next t) : HostChangesOnly s t := by
  obtain rfl | ⟨r, -, -, hr, rfl⟩ | ⟨i, -, -, -, hidle, -⟩ := hwrite_next h
  · rfl
  · have hw := hostChangesOnly_writeReg hb v (hr hb)
    exact congrArg (State.answer · (.write .okay)) hw
  · exact absurd hb (by simp [hidle])

/-- A step that neither completes nor abandons the running command is the host's. -/
theorem hostChangesOnly_step {s t : State} (h : step s = .next t) (hs : s.busy = true) (ht : t.busy = true) :
    HostChangesOnly s t := by
  obtain ⟨u, -, hidle, -⟩ | ⟨u, -, -, hc⟩ | ⟨size, off, rest, -, r, rfl⟩ | ⟨size, off, v, rest, -, hw⟩ | ⟨rest, -, rfl⟩ :=
    step_next h
  · exact absurd hs (by simp [hidle])
  · exact absurd ht (by simp [(complete_flags hc).2.1])
  · rfl
  · have hu : HostChangesOnly { s with schedule := rest } t := hostChangesOnly_hwrite hs hw
    exact hu
  · exact absurd ht Bool.false_ne_true

/-- Settles O36, by the frame of such a step. -/
theorem busyHoldsOperandsAndResults : Obligations.BusyHoldsOperandsAndResults := by
  intro s t h hs ht
  rw [hostChangesOnly_step h hs ht]
  exact ⟨rfl, rfl, rfl, rfl, rfl, rfl, rfl, rfl⟩

end Sys2Proof.Machine
end

section
/-! PROOFS. The one stop of a command (20_memory.md R115; 60_exceptions.md R243, R249). -/

namespace Sys2Proof.Machine

open Sys2Proof

/-- A command has an effect exactly when the words it reads are written. -/
theorem effectOf_isSome_iff (i : Instr) (s : State) : (effectOf i s).isSome ↔ s.OperandsWritten i := by
  cases i with
  | lpc src dst n => simp [effectOf, lpcEffect, State.OperandsWritten]
  | yin src dst n => simp [effectOf, yinEffect, State.OperandsWritten]
  | pconv src dst lp =>
    simp only [effectOf, pconvEffect, State.OperandsWritten, argU64]
    cases s.dmem.readWords src lp <;> simp
  | reson src dst len => exact iff_of_true rfl trivial
  | noise src dst n => exact iff_of_true rfl trivial
  | noisec src dst n => exact iff_of_true rfl trivial

theorem effectOf_eq_none_iff (i : Instr) (s : State) : effectOf i s = none ↔ ¬ s.OperandsWritten i := by
  rw [← effectOf_isSome_iff, Option.not_isSome_iff_eq_none]

/-- Every command that ends in a next state has completed, with or without an error. -/
theorem exec_flags {i : Instr} {s t : State} (h : exec i s = .next t) : t.done = true ∧ t.busy = false := by
  obtain ⟨-, rfl⟩ | ⟨-, -, rfl⟩ | ⟨-, -, e, -, rfl⟩ := exec_next h <;> exact ⟨rfl, rfl⟩

theorem exec_fault_iff_operands {i : Instr} {s : State} {f : Fault} :
    exec i s = .fault f ↔
      f = .uninit ∧ argumentInvalid i s.lat = false ∧ rangeInvalid s.dmemWords i s.lat = false ∧ ¬ s.OperandsWritten i := by
  rw [exec_fault_iff, effectOf_eq_none_iff]

/-- Settles O30: of the three outcomes of `exec`, refusal never happens and a fault needs an unwritten operand. -/
theorem commandsStopOnlyOnUnwrittenOperands : Obligations.CommandsStopOnlyOnUnwrittenOperands := by
  refine fun i s => ⟨fun hw => ?_, fun f => exec_fault_iff_operands, exec_ne_refused i s⟩
  cases h : exec i s with
  | next t => exact ⟨t, rfl, exec_flags h⟩
  | fault f =>
    obtain ⟨-, -, -, hn⟩ := exec_fault_iff_operands.1 h
    exact absurd hw hn
  | refused r => exact absurd h (exec_ne_refused i s r)

end Sys2Proof.Machine
end

section
/-! PROOFS. Decoding and encoding are inverse, and what a word decodes to, in slices of the word (30_encoding.md R130-R143). -/

namespace Sys2Proof

/-! ### The fields as slices -/

theorem opField_eq_extractLsb' (w : Word) : opField w = (w.extractLsb' 0 8).toNat := (toNat_extractLsb'_eq_field w 0 8).symm

theorem rsvField_eq_extractLsb' (w : Word) : rsvField w = (w.extractLsb' 8 8).toNat := (toNat_extractLsb'_eq_field w 8 8).symm

theorem srcField_eq_extractLsb' (w : Word) : srcField w = (w.extractLsb' 16 16).toNat := (toNat_extractLsb'_eq_field w 16 16).symm

theorem dstField_eq_extractLsb' (w : Word) : dstField w = (w.extractLsb' 32 16).toNat := (toNat_extractLsb'_eq_field w 32 16).symm

theorem lenField_eq_extractLsb' (w : Word) : lenField w = (w.extractLsb' 48 16).toNat := (toNat_extractLsb'_eq_field w 48 16).symm

theorem rsvField_eq_zero_iff (w : Word) : rsvField w = 0 ↔ w.extractLsb' 8 8 = 0#8 := by
  rw [rsvField_eq_extractLsb', BitVec.toNat_eq]
  rfl

/-! ### Encode and decode -/

/-- The five fields are the whole word (30_encoding.md R130). -/
theorem toNat_eq_sum_fields (w : Word) :
    w.toNat = lenField w * 2 ^ 48 + dstField w * 2 ^ 32 + srcField w * 2 ^ 16 + rsvField w * 2 ^ 8 + opField w := by
  have hw := w.isLt
  simp only [opField, rsvField, srcField, dstField, lenField, Word.field]
  omega

theorem Instr.wellFormed_of_decode {w : Word} {i : Instr} (h : decode w = .cmd i) : i.WellFormed := by
  obtain ⟨-, -, hsrc, hdst, hlen⟩ := decode_eq_cmd_iff.1 h
  exact ⟨hsrc ▸ w.field_lt 16 16, hdst ▸ w.field_lt 32 16, hlen ▸ w.field_lt 48 16⟩

theorem encode_of_decode {w : Word} {i : Instr} (h : decode w = .cmd i) : encode i = w := by
  obtain ⟨hs, hd, hl⟩ := Instr.wellFormed_of_decode h
  obtain ⟨hrsv, hop, hsrc, hdst, hlen⟩ := decode_eq_cmd_iff.1 h
  have hop6 := i.op_bounds
  apply BitVec.eq_of_toNat_eq
  rw [encode, toNat_enc (by omega) hs hd hl, toNat_eq_sum_fields w, hrsv, hop, hsrc, hdst, hlen, Nat.zero_mul, Nat.add_zero]

theorem decode_encode {i : Instr} (h : i.WellFormed) : decode (encode i) = .cmd i := by
  obtain ⟨hop, hrsv, hsrc, hdst, hlen⟩ := fields_encode h
  exact decode_eq_cmd_iff.2 ⟨hrsv, hop.symm, hsrc.symm, hdst.symm, hlen.symm⟩

/-- Settles O1: the fields of the encoded word are those of the command. -/
theorem decodeOfEncodeIsTheCommand : Obligations.DecodeOfEncodeIsTheCommand := fun _ => decode_encode

/-- Settles O2: the fields of the word, RSV being 0, are those of the command and make up the whole word. -/
theorem encodeOfDecodedIsTheWord : Obligations.EncodeOfDecodedIsTheWord :=
  fun _ _ h => ⟨Instr.wellFormed_of_decode h, encode_of_decode h⟩

/-! ### Decoding is total -/

theorem exists_decode_eq_cmd {w : Word} (hop : opField w ∈ [1, 2, 3, 4, 5, 6]) (hrsv : rsvField w = 0) :
    ∃ i, decode w = .cmd i := by
  cases hc : commandOf (opField w) (srcField w) (dstField w) (lenField w) with
  | none => exact absurd hop (commandOf_eq_none_iff.1 hc)
  | some i => exact ⟨i, decode_eq_cmd_iff.2 ⟨hrsv, commandOf_eq_some hc⟩⟩

/-- Settles O3: the three cases of `decode`, its fields written as slices. -/
theorem decodeTakesOpcodeThenReserved : Obligations.DecodeTakesOpcodeThenReserved := by
  intro w
  rw [← opField_eq_extractLsb', ← srcField_eq_extractLsb', ← dstField_eq_extractLsb', ← lenField_eq_extractLsb', Ne,
    ← rsvField_eq_zero_iff]
  refine ⟨decode_of_illegal, decode_of_reserved, fun hop hrsv => ?_⟩
  obtain ⟨i, hi⟩ := exists_decode_eq_cmd hop hrsv
  obtain ⟨-, hfields⟩ := decode_eq_cmd_iff.1 hi
  exact ⟨i, hi, hfields⟩

/-- Settles O4, by evaluating `decode` on each word. -/
theorem sampleWordsDecode : Obligations.SampleWordsDecode := by
  unfold Obligations.SampleWordsDecode
  decide

end Sys2Proof
end

section
/-! PROOFS. Words that are no command, from acceptance to completion (30_encoding.md R132, R139; 60_exceptions.md R241, R248). -/

namespace Sys2Proof.Machine

open Sys2Proof

theorem complete_of_illegal {s : State} (h : decode s.lat.cmd = .illegal) : complete s = .next (s.completedWith 0x01#8) := by
  rw [complete, h]
  rfl

theorem complete_of_reserved {s : State} (h : decode s.lat.cmd = .reserved) : complete s = .next (s.completedWith 0x02#8) := by
  rw [complete, h]
  rfl

/-- A CMD write to an idle block is accepted, whatever the word (60_exceptions.md R241). -/
theorem hwrite_cmd_of_idle {s : State} {off : BitVec 20} (w : Word) (h : off.toNat = 0x20) (hb : s.busy = false) :
    hwrite s 8 off w = .next ((s.accept w).answer (.write .okay)) := by
  rw [← writeCmd_of_idle hb]
  exact hwrite_reg_okay w .cmd h (by decide)

/-- Settles O7: acceptance does not look at the word; the completion decodes the latched one. -/
theorem malformedWordsCompleteWithTheirCode : Obligations.MalformedWordsCompleteWithTheirCode := by
  refine fun w => ⟨fun s off hoff hb => ⟨_, hwrite_cmd_of_idle w hoff hb, rfl, rfl, rfl⟩, ?_⟩
  intro s u hb hw (hu : CoreMoves s u)
  have hlat : u.lat.cmd = w := by rw [hu.frame.1, ← hw]
  obtain ⟨hillegal, hreserved, -⟩ := decodeTakesOpcodeThenReserved u.lat.cmd
  rw [step_of_coreMoves hu hb, ← hlat]
  exact ⟨fun hop => complete_of_illegal (hillegal hop), fun hop hrsv => complete_of_reserved (hreserved hop hrsv)⟩

end Sys2Proof.Machine
end

section
/-! PROOFS. The fields and the latched ARG registers a command ignores (30_encoding.md R137, R140). -/

namespace Sys2Proof.Machine

open Sys2Proof

/-- The state with the latched ARG registers replaced. -/
def State.withLatArgs (a : Args) (s : State) : State := { s with lat := { s.lat with arg := a } }

/-- A command whose checks and effect do not see the replaced ARG registers completes as before, the replaced ones staying in the
latch. -/
theorem exec_withLatArgs {i : Instr} {s : State} {a : Args}
    (harg : argumentInvalid i (s.withLatArgs a).lat = argumentInvalid i s.lat)
    (hrange : rangeInvalid (s.withLatArgs a).dmemWords i (s.withLatArgs a).lat = rangeInvalid s.dmemWords i s.lat)
    (heff : effectOf i (s.withLatArgs a) = effectOf i s) :
    exec i (s.withLatArgs a) = mapNext (State.withLatArgs a) (exec i s) := by
  rw [exec_eq, exec_eq, heff]
  unfold checkAndComplete
  rw [harg, hrange]
  split
  · rfl
  · split
    · rfl
    · cases effectOf i s <;> rfl

/-- Settles O38: the ignored fields and registers occur in no check and in no effect. -/
theorem ignoredOperandsDoNotMatter : Obligations.IgnoredOperandsDoNotMatter :=
  fun _ _ _ _ _ _ _ => ⟨rfl, rfl, rfl, exec_withLatArgs rfl rfl rfl, exec_withLatArgs rfl rfl rfl, exec_withLatArgs rfl rfl rfl,
    exec_withLatArgs rfl rfl rfl, exec_withLatArgs rfl rfl rfl⟩

end Sys2Proof.Machine
end

section
/-! PROOFS. Spellings of command words (30_encoding.md R144, R146). -/

namespace Sys2Proof.Machine

open Sys2Proof

/-- Settles O60, by evaluating the assembler on each text. -/
theorem assemblerExamples : Obligations.AssemblerExamples := by
  unfold Obligations.AssemblerExamples
  decide

end Sys2Proof.Machine
end

section
/-! PROOFS. The stages of Burg's recursion (40_lpc.md R162-R170): the elements each update leaves, and the energy test on zeros. -/

namespace Sys2Proof.Machine

open Sys2Proof

/-! ### The elements of an update -/

theorem getElem?_map_range {g : Nat → F64} {n i : Nat} (hi : i < n) : ((List.range n).map g)[i]? = some (g i) := by simp [hi]

/-- An update written over the positions of a list leaves the elements it gives back. -/
theorem getElem?_map_range_of_eq_elem {l : List F64} {g : Nat → F64} {i : Nat} (h : g i = elem l i) :
    ((List.range l.length).map g)[i]? = l[i]? := by
  by_cases hi : i < l.length
  · rw [getElem?_map_range hi, h, elem, List.getD_eq_getElem?_getD, List.getElem?_eq_getElem hi, Option.getD_some]
  · simp [hi]

/-- Element 0 and the elements above `m` are no part of stage `m` (40_lpc.md R168). -/
theorem getElem?_burgCoefs_outside {a : List F64} {m i : Nat} {k : F64} (h : i = 0 ∨ m < i) :
    (burgCoefs a m k)[i]? = a[i]? := by
  refine getElem?_map_range_of_eq_elem ?_
  obtain rfl | h := h
  · exact if_pos rfl
  · rw [if_neg (by omega), if_neg (by omega), if_neg (by omega)]

theorem getElem?_burgCoefs_reflection {a : List F64} {m : Nat} {k : F64} (hm : 1 ≤ m) (h : m < a.length) :
    (burgCoefs a m k)[m]? = some k := by
  rw [burgCoefs, getElem?_map_range h, if_neg (by omega), if_neg (by omega), if_pos rfl]

theorem getElem?_burgCoefs_inside {a : List F64} {m i : Nat} {k : F64} (hi : 1 ≤ i) (him : i < m) (h : i < a.length) :
    (burgCoefs a m k)[i]? = some (fadd (elem a i) (fmul k (elem a (m - i)))) := by
  rw [burgCoefs, getElem?_map_range h, if_neg (by omega), if_pos him]

section
variable {b : Burg} {m L : Nat} {k : F64}

theorem getElem?_burgForward_window {j : Nat} (hm : 1 ≤ m) (hj : j < L) (hL : m + L ≤ b.ef.length) :
    (burgForward b m L k)[m + j]? = some (fadd (elem b.ef (m + j)) (fmul k (elem b.eb (m - 1 + j)))) := by
  rw [burgForward, getElem?_map_range (by omega), if_pos (by omega), Nat.sub_add_comm hm]

theorem getElem?_burgForward_outside {i : Nat} (h : i < m ∨ m + L ≤ i) : (burgForward b m L k)[i]? = b.ef[i]? :=
  getElem?_map_range_of_eq_elem (if_neg (by omega))

theorem getElem?_burgBackward_window {j : Nat} (hm : 1 ≤ m) (hj : j < L) (hL : m + L ≤ b.eb.length) :
    (burgBackward b m L k)[m - 1 + j]? = some (fadd (elem b.eb (m - 1 + j)) (fmul k (elem b.ef (m + j)))) := by
  rw [burgBackward, getElem?_map_range (by omega), if_pos (by omega), show m - 1 + j + 1 = m + j by omega]

theorem getElem?_burgBackward_outside {i : Nat} (h : i < m - 1 ∨ m - 1 + L ≤ i) :
    (burgBackward b m L k)[i]? = b.eb[i]? :=
  getElem?_map_range_of_eq_elem (if_neg (by omega))

end

/-! ### The energy test -/

theorem isFinite_of_fmag_eq_zero {x : F64} (h : fmag x = 0) : isFinite x = true := by
  rw [isFinite_iff, fmag_eq_zero.1 h]
  decide

/-- The square of a zero of either sign is `+0.0`. -/
theorem fmul_self_of_fmag_eq_zero {x : F64} (h : fmag x = 0) : fmul x x = f64Zero := by
  have hx := isFinite_of_fmag_eq_zero h
  rw [fmul_of_finite hx hx, h, bne_self_eq_false, fround, roundMag_zero _ unitsPerOne_pos]
  rfl

theorem fadd_zero_zero : fadd f64Zero f64Zero = f64Zero := by decide

theorem fsum_eq_zero {l : List F64} (h : ∀ v ∈ l, v = f64Zero) : fsum l = f64Zero := by
  unfold fsum
  induction l with
  | nil => rfl
  | cons v vs ih =>
    obtain ⟨rfl, hvs⟩ := List.forall_mem_cons.1 h
    rw [List.foldl_cons, fadd_zero_zero]
    exact ih hvs

/-- The energy of `L` elements that are zeros is `+0.0`: also where the window is empty. -/
theorem fsum_squares_eq_zero {u : Nat → F64} {L : Nat} (h : ∀ j, j < L → fmag (u j) = 0) :
    fsum ((List.range L).map fun j => fmul (u j) (u j)) = f64Zero := by
  refine fsum_eq_zero fun v hv => ?_
  obtain ⟨j, hj, rfl⟩ := List.mem_map.1 hv
  exact fmul_self_of_fmag_eq_zero (h j (List.mem_range.1 hj))

theorem burgDen_eq_zero {b : Burg} {m L : Nat}
    (h : ∀ j, j < L → fmag (elem b.ef (m + j)) = 0 ∧ fmag (elem b.eb (m - 1 + j)) = 0) : burgDen b m L = f64Zero := by
  rw [burgDen, fsum_squares_eq_zero fun j hj => (h j hj).1, fsum_squares_eq_zero fun j hj => (h j hj).2, fadd_zero_zero]

theorem fle_zero_epsDen : fle f64Zero f64EpsDen = true := by decide

theorem burgLoop_succ (n count m : Nat) (b : Burg) :
    burgLoop n (count + 1) m b =
      if fle (burgDen b m (n - m)) f64EpsDen then b else burgLoop n count (m + 1) (burgStage b m (n - m)) := rfl

/-- Without energy the recursion ends before its next stage (40_lpc.md R166). -/
theorem burgLoop_of_den_eq_zero {n m : Nat} {b : Burg} (h : burgDen b m (n - m) = f64Zero) (count : Nat) :
    burgLoop n count m b = b := by
  cases count with
  | zero => rfl
  | succ count => rw [burgLoop_succ, h, if_pos fle_zero_epsDen]

/-- The energy test never admits a stage with empty windows. -/
theorem lt_of_fle_burgDen_eq_false {n m : Nat} {b : Burg} (h : fle (burgDen b m (n - m)) f64EpsDen = false) : m < n := by
  by_contra hge
  have hden : burgDen b m (n - m) = f64Zero := burgDen_eq_zero fun j hj => by omega
  rw [hden, fle_zero_epsDen] at h
  cases h

end Sys2Proof.Machine
end

section
/-! PROOFS. LPC and Burg's recursion (40_lpc.md R160-R172). -/

namespace Sys2Proof.Machine

open Sys2Proof

/-! ### The command -/

/-- Settles O21: both checks pass, and the effect is one window. -/
theorem lpcCompletes : Obligations.LpcCompletes := by
  intro s src dst n x p hn hp hsrc hdst hx
  have harg : argumentInvalid (.lpc src dst n) s.lat = false := by simpa [argumentInvalid, argU64] using ⟨hn, hp⟩
  have hrange : rangeInvalid s.dmemWords (.lpc src dst n) s.lat = false := by
    simpa [rangeInvalid, argU64] using ⟨hsrc, hdst⟩
  have heffect : effectOf (.lpc src dst n) s = some
      { writes := [(dst, (burg x p).1)], r0 := p + 1, r1 := (burg x p).2, voiced := false, prng := none } :=
    congrArg (Option.map _) hx
  exact ⟨_, exec_of_checks harg hrange heffect, length_burg x p, completedOk_window s dst _ _ _ _ none⟩

/-! ### The recursion, rule by rule -/

/-- Settles O42: the sums and the stage are the definitions', the updates by the lemmas on their elements. -/
theorem burgFollowsTheRecursion : Obligations.BurgFollowsTheRecursion := by
  refine ⟨fun x p => rfl, fun n count m b => ⟨rfl, burgLoop_succ n count m b⟩, fun a m i k hm hi => ⟨length_burgCoefs a m k, ?_⟩,
    fun b m L k hm hL hlen => ⟨fun j hj => ⟨?_, ?_⟩, fun _ => getElem?_burgForward_outside, fun _ => getElem?_burgBackward_outside⟩⟩
  · split_ifs with heq hin
    · subst heq
      exact getElem?_burgCoefs_reflection hm hi
    · exact getElem?_burgCoefs_inside hin.1 (by omega) hi
    · exact getElem?_burgCoefs_outside (by omega)
  · exact getElem?_burgForward_window hm hj hL
  · exact getElem?_burgBackward_window hm hj (hlen ▸ hL)

/-! ### The shape of the output -/

/-- What the recursion carries when stage `m` is next: `m - 1` stages completed, none with an empty window, element 0 still `1.0`, and
the elements no stage has reached still `+0.0`. -/
structure BurgShape (n p m : Nat) (b : Burg) : Prop where
  next     : b.stages + 1 = m
  nonempty : b.stages ≤ n - 1
  head     : b.a[0]? = some f64One
  tail     : ∀ i, b.stages < i → i ≤ p → b.a[i]? = some f64Zero

theorem burgShape_init (x : List F64) (p : Nat) : BurgShape x.length p 1 (burgInit x p) where
  next := rfl
  nonempty := Nat.zero_le _
  head := rfl
  tail i hi hip := by
    cases i with
    | zero => exact absurd hi (Nat.lt_irrefl 0)
    | succ i => exact List.getElem?_replicate_of_lt hip

theorem burgShape_stage {n p m : Nat} {b : Burg} (h : BurgShape n p m b) (hden : fle (burgDen b m (n - m)) f64EpsDen = false) :
    BurgShape n p (m + 1) (burgStage b m (n - m)) where
  next := rfl
  nonempty := Nat.le_sub_one_of_lt (lt_of_fle_burgDen_eq_false hden)
  head := (getElem?_burgCoefs_outside (.inl rfl)).trans h.head
  tail i hi hip := by
    have hmi : m < i := hi
    have hnext := h.next
    exact (getElem?_burgCoefs_outside (.inr hmi)).trans (h.tail i (by omega) hip)

/-- Settles O43: the shape holds of the initial values and every stage keeps it. -/
theorem burgOutputShape : Obligations.BurgOutputShape := by
  intro x p _ _
  obtain ⟨m, -, hm, h⟩ := burgLoop_induction (BurgShape x.length p) (fun _ _ => burgShape_stage) p 1 _ (burgShape_init x p)
  have hstages : (burg x p).2 ≤ p := by
    have hnext : (burg x p).2 + 1 = m := h.next
    omega
  exact ⟨length_burg x p, h.head, h.tail, le_min hstages h.nonempty⟩

/-! ### A silent frame -/

theorem fmag_elem_of_zeros {x : List F64} (h : ∀ v ∈ x, v = 0x0000000000000000#64 ∨ v = 0x8000000000000000#64) (i : Nat) :
    fmag (elem x i) = 0 := by
  rw [elem, List.getD_eq_getElem?_getD]
  cases hi : x[i]? with
  | none => decide
  | some v => obtain rfl | rfl := h v (List.mem_of_getElem? hi) <;> decide

/-- Settles O44: the first stage finds no energy, so the initial values are the result. -/
theorem silentInputGivesTrivialPredictor : Obligations.SilentInputGivesTrivialPredictor := by
  intro x p _ _ hx
  have hden : burgDen (burgInit x p) 1 (x.length - 1) = f64Zero :=
    burgDen_eq_zero fun _ _ => ⟨fmag_elem_of_zeros hx _, fmag_elem_of_zeros hx _⟩
  rw [burg, burgLoop_of_den_eq_zero hden]
  rfl

end Sys2Proof.Machine
end

section
/-! PROOFS. Resonance synthesis and polynomial convolution (41_resonance.md R180-R186). -/

namespace Sys2Proof.Machine

open Sys2Proof

/-! ### The terms of a product element -/

/-- The positions whose factors both exist are an interval (41_resonance.md R186). -/
theorem filter_range_terms {m : Nat} (hm : 0 < m) (n k : Nat) :
    ((List.range m).filter fun i => decide (i ≤ k) && decide (k - i < n)) =
      List.range' (k + 1 - n) (min k (m - 1) + 1 - (k + 1 - n)) := by
  have hpred : (fun i => decide (i ≤ k) && decide (k - i < n)) = fun i => decide (k + 1 - n ≤ i) && decide (i < k + 1) := by
    funext i
    rw [Bool.eq_iff_iff]
    simp only [Bool.and_eq_true, decide_eq_true_eq]
    omega
  have htop : min m (k + 1) = min k (m - 1) + 1 := by omega
  rw [hpred, ← List.filter_filter, ← List.Ico.zero_bot, List.Ico.filter_lt, List.Ico.filter_le, Nat.zero_max, htop, List.Ico]

theorem convElem_eq_foldl {p : List F64} (hp : p ≠ []) (q : List F64) (k : Nat) :
    convElem p q k =
      (((List.range p.length).filter fun i => decide (i ≤ k) && decide (k - i < q.length)).map fun i =>
        fmul (elem p i) (elem q (k - i))).foldl fadd f64Zero := by
  rw [filter_range_terms (List.length_pos_iff.2 hp), convElem, fsum]

/-- Settles O45: element `k` of the product is `convElem`, whose interval of terms is the filtered one. -/
theorem convolutionElements : Obligations.ConvolutionElements := by
  intro p q hp _
  refine ⟨length_conv p q, fun k hk => ?_⟩
  rw [conv, getElem?_map_range hk, convElem_eq_foldl hp]
  rfl

/-! ### The commands -/

/-- Settles O22: both checks look at the sample rate and DST alone, and the effect is one window of three words. -/
theorem resonCompletes : Obligations.ResonCompletes := by
  intro s src dst len f bw rate theta r hfinite hpos hdst
  have harg : argumentInvalid (.reson src dst len) s.lat = false := by
    simpa [argumentInvalid, finitePositive, argF64] using ⟨hfinite, hpos⟩
  have hrange : rangeInvalid s.dmemWords (.reson src dst len) s.lat = false := by simpa [rangeInvalid] using hdst
  exact ⟨_, exec_of_checks harg hrange rfl, completedOk_window s dst _ 3 0 false none⟩

/-- Settles O23: both checks pass, and the effect is one window, computed from the words both operands held before. -/
theorem pconvCompletes : Obligations.PconvCompletes := by
  intro s src dst lp p q qb lq hlp hlq hsrc hqb hdst hp hq
  have harg : argumentInvalid (.pconv src dst lp) s.lat = false := by simpa [argumentInvalid, argU64] using ⟨hlp, hlq⟩
  have hrange : rangeInvalid s.dmemWords (.pconv src dst lp) s.lat = false := by
    simp only [rangeInvalid, Bool.or_eq_false_iff, decide_eq_false_iff_not, not_lt]
    exact ⟨⟨hsrc, hqb⟩, hdst⟩
  have heffect : effectOf (.pconv src dst lp) s = some
      { writes := [(dst, conv p q)], r0 := lp + lq - 1, r1 := 0, voiced := false, prng := none } := by
    rw [effectOf, pconvEffect, hp]
    exact congrArg (Option.map _) hq
  obtain ⟨hlenp, -⟩ := Mem.readWords_spec _ _ _ _ hp
  obtain ⟨hlenq, -⟩ := Mem.readWords_spec _ _ _ _ hq
  have hlength : (conv p q).length = lp + lq - 1 := by rw [length_conv, hlenp, hlenq]
  exact ⟨_, exec_of_checks harg hrange heffect, hlength, completedOk_window s dst _ _ _ _ none⟩

end Sys2Proof.Machine
end

section
/-! PROOFS. The lag bounds of YIN (42_yin.md R201): both quotients are of positive values, so that their floors are defined. -/

namespace Sys2Proof.Machine

open Sys2Proof

theorem fgt_zero_iff {x : F64} : fgt x f64Zero = true ↔ isNaN x = false ∧ fsign x = false ∧ fmag x ≠ 0 := by
  have hz : isNaN f64Zero = false := by decide
  have h0 : fint f64Zero = 0 := by decide
  cases hn : isNaN x
  · rw [fgt_iff hn hz, h0, fint]
    cases fsign x <;> simp [Nat.pos_iff_ne_zero]
  · simp [fgt, hn]

theorem fgt_zero_of_flt {a b : F64} (ha : fgt a f64Zero = true) (hab : flt a b = true) : fgt b f64Zero = true := by
  simp only [fgt, flt, Bool.and_eq_true, decide_eq_true_eq] at ha hab ⊢
  obtain ⟨⟨-, hz⟩, h0a⟩ := ha
  obtain ⟨⟨-, hb⟩, hlt⟩ := hab
  exact ⟨⟨hb, hz⟩, h0a.trans hlt⟩

/-- A finite positive value over a positive one, `+∞` included, is no NaN and has its sign bit clear. -/
theorem fdiv_of_positive {a b : F64} (hfin : isFinite a = true) (ha : fgt a f64Zero = true) (hb : fgt b f64Zero = true) :
    isNaN (fdiv a b) = false ∧ fsign (fdiv a b) = false := by
  obtain ⟨-, hsa, -⟩ := fgt_zero_iff.1 ha
  obtain ⟨hnb, hsb, h0b⟩ := fgt_zero_iff.1 hb
  have hsign : (fsign a != fsign b) = false := by rw [hsa, hsb]; rfl
  cases hi : isInf b
  · rw [fdiv_of_finite hfin (isFinite_of_isNaN_isInf_eq_false hnb hi) h0b, hsign]
    exact ⟨isNaN_fround .., fsign_fround ..⟩
  · rw [fdiv_of_isInf_right hfin hi, hsign]
    decide

theorem floorX_of_isInf {q : F64} (h : isInf q = true) : floorX q = none := if_pos h

/-- The floor of a finite value is the integer `k` with `k ≤ q < k + 1` (00_scope.md R22). -/
theorem floorX_eq_some {q : F64} {k : Nat} (h : isInf q = false) (hlo : k * unitsPerOne ≤ fmag q)
    (hhi : fmag q < (k + 1) * unitsPerOne) : floorX q = some k := by
  rw [floorX, h, Nat.div_eq_of_lt_le hlo hhi]
  rfl

section
variable {sr fmin fmax : F64} (n : Nat)

theorem tauMin_eq {q : Option Nat} (h : floorX (fdiv sr fmax) = q) : (yinBounds sr fmin fmax n).1 = q.map (max 1) :=
  congrArg (Option.map (max 1)) h

theorem tauMax_of_floor_some {k : Nat} (h : floorX (fdiv sr fmin) = some k) : (yinBounds sr fmin fmax n).2 = min k (n - 1) := by
  rw [yinBounds, h]

theorem tauMax_of_floor_none (h : floorX (fdiv sr fmin) = none) : (yinBounds sr fmin fmax n).2 = n - 1 := by rw [yinBounds, h]

theorem one_le_tauMin {lo : Nat} (h : (yinBounds sr fmin fmax n).1 = some lo) : 1 ≤ lo := by
  obtain ⟨q, -, rfl⟩ := Option.map_eq_some_iff.1 h
  exact Nat.le_max_left 1 q

end

/-- Settles O47: both quotients are of positive values, and each bound is read off the floor of its own. -/
theorem yinBoundsAreDefined : Obligations.YinBoundsAreDefined := by
  intro sr fmin fmax n hfin hsr hfmin hlt qmax qmin
  obtain ⟨hnmax, hsmax⟩ := fdiv_of_positive hfin hsr (fgt_zero_of_flt hfmin hlt)
  obtain ⟨hnmin, hsmin⟩ := fdiv_of_positive hfin hsr hfmin
  exact ⟨hnmax, hsmax, hnmin, hsmin,
    fun k hlo hhi hinf => tauMin_eq n (floorX_eq_some hinf hlo hhi), fun hinf => tauMin_eq n (floorX_of_isInf hinf),
    fun k hlo hhi hinf => tauMax_of_floor_some n (floorX_eq_some hinf hlo hhi),
    fun hinf => tauMax_of_floor_none n (floorX_of_isInf hinf)⟩

end Sys2Proof.Machine
end

section
/-! PROOFS. The difference function and the CMND of YIN (42_yin.md R202, R203). -/

namespace Sys2Proof.Machine

open Sys2Proof

@[simp] theorem length_yinDiffs (fr : List F64) (tauMax : Nat) : (yinDiffs fr tauMax).length = tauMax := by simp [yinDiffs]

theorem getElem?_yinDiffs {fr : List F64} {tau tauMax : Nat} (h1 : 1 ≤ tau) (h2 : tau ≤ tauMax) :
    (yinDiffs fr tauMax)[tau - 1]? = some (yinDiff fr tau) := by
  have hlt : tau - 1 < tauMax := by omega
  have heq : 1 + (tau - 1) = tau := by omega
  simp [yinDiffs, hlt, heq]

/-- One element of the CMND, from `d[tau]` and the running sum `S` of `d[1..tau]` (42_yin.md R203). -/
def cmndElem (tau : Nat) (d S : F64) : F64 := if fgt S f64Zero then fdiv (fmul d (toF tau)) S else f64One

@[simp] theorem length_cmndFrom (ds : List F64) (tau : Nat) (sum : F64) : (cmndFrom tau sum ds).length = ds.length := by
  induction ds generalizing tau sum with
  | nil => rfl
  | cons d ds ih => simp [cmndFrom, ih]

/-- Each element is of its own lag, its own difference and the sum up to and with that difference. -/
theorem getElem?_cmndFrom {ds : List F64} {i : Nat} (hi : i < ds.length) (tau : Nat) (sum : F64) :
    (cmndFrom tau sum ds)[i]? = some (cmndElem (tau + i) (elem ds i) ((ds.take (i + 1)).foldl fadd sum)) := by
  induction ds generalizing i tau sum with
  | nil => cases hi
  | cons d ds ih =>
    cases i with
    | zero => rfl
    | succ i =>
      have htail := ih (Nat.lt_of_succ_lt_succ hi) (tau + 1) (fadd sum d)
      rw [Nat.add_right_comm] at htail
      exact htail

@[simp] theorem length_yinCmnd (ds : List F64) : (yinCmnd ds).length = ds.length + 1 := by simp [yinCmnd]

theorem getElem?_yinCmnd {ds : List F64} {tau : Nat} (h1 : 1 ≤ tau) (h2 : tau ≤ ds.length) :
    (yinCmnd ds)[tau]? = some (cmndElem tau (elem ds (tau - 1)) (fsum (ds.take tau))) := by
  obtain ⟨i, rfl⟩ := Nat.exists_eq_add_of_le' h1
  have h := getElem?_cmndFrom h2 1 f64Zero
  rw [Nat.add_comm 1 i] at h
  exact h

/-- Settles O48: the differences by position, the CMND by the invariant that the sum is that of the differences passed. -/
theorem yinDifferenceAndCmnd : Obligations.YinDifferenceAndCmnd :=
  ⟨fun fr tauMax => ⟨length_yinDiffs fr tauMax, fun _ h1 h2 => getElem?_yinDiffs h1 h2⟩,
    fun ds => ⟨length_yinCmnd ds, rfl, fun _ h1 h2 => getElem?_yinCmnd h1 h2⟩⟩

end Sys2Proof.Machine
end


section
/-! PROOFS. The search of YIN (42_yin.md R204-R206). -/

namespace Sys2Proof.Machine

open Sys2Proof

/-- A lag found is the refinement of the first lag of the range below the threshold (42_yin.md R204, R205). -/
theorem yinSearch_eq_some_iff {cmnd : List F64} {lo tauMax tau : Nat} {thr : F64} :
    yinSearch cmnd (some lo) tauMax thr = some tau ↔
      ∃ t, lo ≤ t ∧ t ≤ tauMax ∧ flt (elem cmnd t) thr = true ∧ (∀ u, lo ≤ u → u < t → flt (elem cmnd u) thr = false) ∧
        yinRefine cmnd (tauMax - t) t = tau := by
  simp only [yinSearch, Option.map_eq_some_iff, List.find?_range'_eq_some, List.mem_range'_1, Bool.not_eq_true']
  refine exists_congr fun t => ⟨?_, ?_⟩
  · rintro ⟨⟨hdip, ⟨hlo, hhi⟩, hfirst⟩, href⟩
    exact ⟨hlo, by omega, hdip, hfirst, href⟩
  · rintro ⟨hlo, hhi, hdip, hfirst, href⟩
    exact ⟨⟨hdip, ⟨hlo, by omega⟩, hfirst⟩, href⟩

/-- None is found exactly when no lag of the range is below the threshold (42_yin.md R206). -/
theorem yinSearch_eq_none_iff {cmnd : List F64} {tauMin : Option Nat} {tauMax : Nat} {thr : F64} :
    yinSearch cmnd tauMin tauMax thr = none ↔
      ∀ lo, tauMin = some lo → ∀ t, lo ≤ t → t ≤ tauMax → flt (elem cmnd t) thr = false := by
  cases tauMin with
  | none => exact ⟨fun _ lo h => absurd h (by simp), fun _ => rfl⟩
  | some lo =>
    simp only [yinSearch, Option.map_eq_none_iff, List.find?_range'_eq_none, Bool.not_eq_true', Option.some.injEq, forall_eq']
    exact forall_congr' fun t => imp_congr_right fun hlo => imp_congr_left (by omega)

/-- A lag found lies in the range. -/
theorem bounds_of_yinSearch {cmnd : List F64} {lo tauMax tau : Nat} {thr : F64}
    (h : yinSearch cmnd (some lo) tauMax thr = some tau) : lo ≤ tau ∧ tau ≤ tauMax := by
  obtain ⟨t, hlo, hhi, -, -, rfl⟩ := yinSearch_eq_some_iff.1 h
  obtain ⟨hge, hle, -, -⟩ := yinRefine_spec cmnd (tauMax - t) t
  omega

/-- Settles O49: the scan stops at the first dip, and the refinement descends from there as `yinRefine_spec` says. -/
theorem yinSearchDescendsFromFirstDip : Obligations.YinSearchDescendsFromFirstDip := by
  refine fun cmnd tauMin tauMax thr => ⟨?_, yinSearch_eq_none_iff⟩
  rintro lo tau rfl h
  obtain ⟨t, hlo, hhi, hdip, hfirst, rfl⟩ := yinSearch_eq_some_iff.1 h
  obtain ⟨hge, -, hdescends, hstops⟩ := yinRefine_spec cmnd (tauMax - t) t
  exact ⟨t, hlo, hge, (bounds_of_yinSearch h).2, hdip, hfirst, hdescends, fun hnext => hstops (by omega)⟩

end Sys2Proof.Machine
end

section
/-! PROOFS. The pitch estimate of YIN, the estimate of a constant frame, and the command (42_yin.md R200, R206-R209). -/

namespace Sys2Proof.Machine

open Sys2Proof

/-! ### The estimate -/

/-- The CMND of a frame, over the lags `0..tauMax` of its bounds. -/
def frameCmnd (fr : List F64) (sr fmin fmax : F64) : List F64 := yinCmnd (yinDiffs fr (yinBounds sr fmin fmax fr.length).2)

theorem yinEstimate_eq_none_iff {fr : List F64} {sr fmin fmax thr : F64} :
    yinEstimate fr sr fmin fmax thr = none ↔
      yinSearch (frameCmnd fr sr fmin fmax) (yinBounds sr fmin fmax fr.length).1 (yinBounds sr fmin fmax fr.length).2 thr = none :=
  Option.map_eq_none_iff

theorem yinEstimate_eq_some_iff {fr : List F64} {sr fmin fmax thr pitch : F64} {tau : Nat} :
    yinEstimate fr sr fmin fmax thr = some (tau, pitch) ↔
      yinSearch (frameCmnd fr sr fmin fmax) (yinBounds sr fmin fmax fr.length).1 (yinBounds sr fmin fmax fr.length).2 thr =
          some tau ∧
        pitch = fdiv sr (yinInterp (frameCmnd fr sr fmin fmax) tau (yinBounds sr fmin fmax fr.length).2) := by
  rw [yinEstimate, Option.map_eq_some_iff]
  constructor
  · rintro ⟨t, hsearch, heq⟩
    obtain ⟨rfl, rfl⟩ := Prod.mk.inj heq
    exact ⟨hsearch, rfl⟩
  · rintro ⟨hsearch, rfl⟩
    exact ⟨tau, hsearch, rfl⟩

theorem one_le_of_yinSearch {cmnd : List F64} {sr fmin fmax thr : F64} {n tauMax tau : Nat}
    (h : yinSearch cmnd (yinBounds sr fmin fmax n).1 tauMax thr = some tau) : 1 ≤ tau := by
  cases hlo : (yinBounds sr fmin fmax n).1 with
  | none => rw [hlo] at h; cases h
  | some lo =>
    rw [hlo] at h
    exact (one_le_tauMin n hlo).trans (bounds_of_yinSearch h).1

theorem le_of_yinSearch {cmnd : List F64} {tauMin : Option Nat} {tauMax tau : Nat} {thr : F64}
    (h : yinSearch cmnd tauMin tauMax thr = some tau) : tau ≤ tauMax := by
  cases tauMin with
  | none => cases h
  | some lo => exact (bounds_of_yinSearch h).2

/-- Settles O50: the search gives the lag, and the two cases of the interpolation are the definition's. -/
theorem yinPitchIsInterpolated : Obligations.YinPitchIsInterpolated := by
  intro fr sr fmin fmax thr tau pitch h tauMax cmnd s0 s1 s2 denom
  obtain ⟨hsearch, rfl⟩ := yinEstimate_eq_some_iff.1 h
  exact ⟨hsearch, one_le_of_yinSearch hsearch, le_of_yinSearch hsearch,
    fun hinterp => congrArg (fdiv sr) (if_pos hinterp), fun hedge => congrArg (fdiv sr) (if_neg hedge)⟩

/-! ### A constant frame (42_yin.md R209) -/

theorem fsub_self_of_isFinite {c : F64} (h : isFinite c = true) : fsub c c = f64Zero := by
  have hsum : fint c + -fint c = 0 := Int.add_right_neg _
  rw [fsub, fadd_of_finite h ((isFinite_fneg c).trans h), fint_fneg, if_pos hsum, fsign_fneg, Bool.and_not_self]
  rfl

theorem elem_replicate {n i : Nat} (c : F64) (h : i < n) : elem (List.replicate n c) i = c := by
  rw [elem, List.getD_eq_getElem?_getD, List.getElem?_replicate_of_lt h, Option.getD_some]

theorem yinDiff_replicate {c : F64} (hc : isFinite c = true) (n tau : Nat) : yinDiff (List.replicate n c) tau = f64Zero := by
  rw [yinDiff, List.length_replicate]
  refine fsum_squares_eq_zero fun i hi => ?_
  rw [elem_replicate c (by omega), elem_replicate c (by omega), fsub_self_of_isFinite hc]
  decide

/-- Where no difference is above zero the running sum stays `+0.0`, so that every CMND is `1.0`. -/
theorem elem_yinCmnd_of_zeros {ds : List F64} (hds : ∀ d ∈ ds, d = f64Zero) {tau : Nat} (h : tau ≤ ds.length) :
    elem (yinCmnd ds) tau = f64One := by
  cases tau with
  | zero => rfl
  | succ tau =>
    have hsum : fsum (ds.take (tau + 1)) = f64Zero := fsum_eq_zero fun d hd => hds d (List.mem_of_mem_take hd)
    rw [elem, List.getD_eq_getElem?_getD, getElem?_yinCmnd (Nat.le_add_left 1 tau) h, hsum]
    rfl

theorem elem_frameCmnd_replicate {c : F64} (hc : isFinite c = true) {n tau : Nat} {sr fmin fmax : F64}
    (h : tau ≤ (yinBounds sr fmin fmax n).2) : elem (frameCmnd (List.replicate n c) sr fmin fmax) tau = f64One := by
  rw [frameCmnd, List.length_replicate]
  refine elem_yinCmnd_of_zeros (fun d hd => ?_) (by rwa [length_yinDiffs])
  obtain ⟨t, -, rfl⟩ := List.mem_map.1 hd
  exact yinDiff_replicate hc n t

theorem flt_eq_false_of_fle {a b : F64} (h : fle a b = true) : flt b a = false := by
  simp only [fle, Bool.and_eq_true, decide_eq_true_eq] at h
  simp [flt, h.2]

theorem flt_irrefl (a : F64) : flt a a = false := by simp [flt]

/-- `denom` of three CMND of `1.0` is zero, so that a flat CMND is not interpolated (42_yin.md R207). -/
theorem fne_yinDenom_one : fne (yinDenom f64One f64One f64One) f64Zero = false := by decide +kernel

section
variable {cmnd : List F64} {tauMax : Nat} (hflat : ∀ t, t ≤ tauMax → elem cmnd t = f64One)
include hflat

theorem yinRefine_of_flat {t : Nat} (h : t ≤ tauMax) : yinRefine cmnd (tauMax - t) t = t := by
  obtain ⟨hge, hle, hdescends, -⟩ := yinRefine_spec cmnd (tauMax - t) t
  by_contra hne
  have hdown := hdescends t le_rfl (by omega)
  rw [hflat t h, hflat (t + 1) (by omega), flt_irrefl] at hdown
  cases hdown

theorem yinInterp_of_flat (tau : Nat) : yinInterp cmnd tau tauMax = toF tau := by
  refine if_neg fun hinterp => ?_
  obtain ⟨h1, h2, hne⟩ := hinterp
  rw [hflat (tau - 1) (by omega), hflat tau (by omega), hflat (tau + 1) (by omega), fne_yinDenom_one] at hne
  cases hne

end

/-- Settles O51: the CMND is `1.0` at every lag, so that either no lag or already `tauMin` is below the threshold. -/
theorem constantFrameEstimate : Obligations.ConstantFrameEstimate := by
  intro c sr fmin fmax thr n hc
  have hlen : (List.replicate n c).length = n := List.length_replicate
  have hflat : ∀ t, t ≤ (yinBounds sr fmin fmax n).2 → elem (frameCmnd (List.replicate n c) sr fmin fmax) t = f64One :=
    fun t => elem_frameCmnd_replicate hc
  constructor
  · intro hthr
    rw [yinEstimate_eq_none_iff, hlen, yinSearch_eq_none_iff]
    intro lo _ t _ ht
    rw [hflat t ht]
    exact flt_eq_false_of_fle hthr
  · intro lo hthr hlo hle
    rw [yinEstimate_eq_some_iff, hlen, hlo, yinSearch_eq_some_iff, yinInterp_of_flat hflat]
    rw [fgt_eq_flt] at hthr
    refine ⟨⟨lo, le_rfl, hle, ?_, fun u hge hlt => absurd hge (by omega), yinRefine_of_flat hflat hle⟩, rfl⟩
    rw [hflat lo hle]
    exact hthr

/-! ### The command -/

/-- What a successful completion that writes no word leaves. -/
theorem completedOk_noWrite (s : State) (base r0 r1 : Nat) (v : Bool) :
    State.CompletedOk s (s.completeOk { writes := [], r0 := r0, r1 := r1, voiced := v, prng := none }) base [] r0 r1 v s.prng where
  stored j hj := absurd hj (Nat.not_lt_zero j)
  kept _ _ := rfl
  changed := rfl

/-- Settles O24: both checks pass, and the estimate decides which of the two effects there is. -/
theorem yinCompletes : Obligations.YinCompletes := by
  intro s src dst n fr sr fmin fmax thr hn hfin hsr hfmin hlt hsrc hdst hfr
  have harg : argumentInvalid (.yin src dst n) s.lat = false := by
    simpa [argumentInvalid, finitePositive, argF64] using ⟨⟨⟨hn, hfin, hsr⟩, hfmin⟩, hlt⟩
  have hrange : rangeInvalid s.dmemWords (.yin src dst n) s.lat = false := by simpa [rangeInvalid] using ⟨hsrc, hdst⟩
  have heffect : effectOf (.yin src dst n) s = some (yinResult dst (yinEstimate fr sr fmin fmax thr)) :=
    congrArg (Option.map _) hfr
  refine ⟨_, exec_of_checks harg hrange heffect, fun tau pitch hvoiced => ?_, fun hunvoiced => ?_⟩
  · rw [hvoiced]
    exact completedOk_window s dst [pitch] 1 tau true none
  · rw [hunvoiced]
    exact ⟨completedOk_noWrite s dst 0 0 false, rfl⟩

end Sys2Proof.Machine
end

section
/-! PROOFS. The generator and its uniforms (43_prng.md R221-R224, R228; 00_scope.md R21). -/

namespace Sys2Proof.Machine

open Sys2Proof

/-! ### Scaled integers are exact -/

/-- A positive integer of at most 53 bits, scaled by a power of two, is the worth of a pattern. -/
theorem exists_magOf_eq {k e : Nat} (hk : 0 < k) (hlt : k < 2 ^ 53) (he : 52 ≤ e) : ∃ b, magOf b = k * 2 ^ e := by
  have hlog : k.log2 ≤ 52 := Nat.lt_succ_iff.1 ((Nat.log2_lt hk.ne').2 hlt)
  have hsplit : k * 2 ^ e = k * 2 ^ (52 - k.log2) * 2 ^ (e - (52 - k.log2)) := by
    rw [Nat.mul_assoc, ← pow_add, show 52 - k.log2 + (e - (52 - k.log2)) = e by omega]
  have hlo : 2 ^ 52 ≤ k * 2 ^ (52 - k.log2) :=
    calc 2 ^ 52 = 2 ^ k.log2 * 2 ^ (52 - k.log2) := by rw [← pow_add, Nat.add_sub_cancel' hlog]
      _ ≤ k * 2 ^ (52 - k.log2) := Nat.mul_le_mul_right _ (Nat.log2_self_le hk.ne')
  have hhi : k * 2 ^ (52 - k.log2) ≤ 2 ^ 53 :=
    calc k * 2 ^ (52 - k.log2) ≤ 2 ^ (k.log2 + 1) * 2 ^ (52 - k.log2) := Nat.mul_le_mul_right _ Nat.lt_log2_self.le
      _ = 2 ^ 53 := by rw [← pow_add, show k.log2 + 1 + (52 - k.log2) = 53 by omega]
  exact ⟨_, (magOf_scaled hhi (.inr hlo)).trans hsplit.symm⟩

theorem mul_two_pow_lt {k j e m : Nat} (hk : k < 2 ^ j) (h : j + e ≤ m) : k * 2 ^ e < 2 ^ m :=
  calc k * 2 ^ e < 2 ^ j * 2 ^ e := Nat.mul_lt_mul_of_pos_right hk (Nat.two_pow_pos e)
    _ = 2 ^ (j + e) := (pow_add 2 j e).symm
    _ ≤ 2 ^ m := Nat.pow_le_pow_right Nat.two_pos h

/-- A quotient that is such a scaled integer, below the infinity, rounds to itself. -/
theorem fround_scaled {k e n d : Nat} (neg : Bool) (hd : 0 < d) (hk : 0 < k) (hlt : k < 2 ^ 53) (hlo : 52 ≤ e) (hhi : e ≤ 2045)
    (h : n = d * (k * 2 ^ e)) : isFinite (fround neg n d) = true ∧ fmag (fround neg n d) = k * 2 ^ e := by
  obtain ⟨b, hb⟩ := exists_magOf_eq hk hlt hlo
  have hinf : b < infBits := by
    rw [← magOf_lt, hb, magOf_infBits, ← pow_add]
    exact mul_two_pow_lt hlt (by omega)
  rw [isFinite_iff, fmag_eq, fbits_fround, roundMag_exact hd hinf (by rw [hb, h])]
  exact ⟨hinf, hb⟩

/-- An integer of at most 53 bits converts without rounding (00_scope.md R21). -/
theorem toF_exact {k : Nat} (hk : 0 < k) (hlt : k < 2 ^ 53) :
    isFinite (toF k) = true ∧ fsign (toF k) = false ∧ fmag (toF k) = k * unitsPerOne := by
  rw [toF, unitsPerOne_eq]
  obtain ⟨hfin, hmag⟩ := fround_scaled false Nat.one_pos hk hlt (e := 1074) (by norm_num) (by norm_num) (Nat.one_mul _).symm
  exact ⟨hfin, fsign_fround _ _ _, hmag⟩

theorem fmag_two32 : fmag f64Two32 = 2 ^ 32 * unitsPerOne := by
  rw [fmag_eq, show fbits f64Two32 = 1054 * 2 ^ 52 + 2 ^ 52 by decide, magOf_scaled (by norm_num) (.inr le_rfl), ← pow_add,
    unitsPerOne_eq, ← pow_add]

/-- A word is determined by its sign and its magnitude. -/
theorem eq_of_fsign_fmag {x y : F64} (hs : fsign x = fsign y) (hm : fmag x = fmag y) : x = y := by
  rw [fmag_eq, fmag_eq, magOf_inj] at hm
  rw [← fpack_fsign_fbits x, hs, hm, fpack_fsign_fbits]

/-! ### The uniform of a state -/

theorem uniform_exact (s : U32) :
    isFinite (uniform s) = true ∧ fsign (uniform s) = false ∧ fmag (uniform s) = (s.toNat + 1) * 2 ^ 1042 := by
  have hlt : s.toNat + 1 < 2 ^ 53 := by have := s.isLt; omega
  obtain ⟨hfin, hsign, hmag⟩ := toF_exact (Nat.add_one_pos s.toNat) hlt
  have hd : 0 < fmag f64Two32 := by rw [fmag_two32]; exact Nat.mul_pos (Nat.two_pow_pos 32) unitsPerOne_pos
  have hquot : fmag (toF (s.toNat + 1)) * unitsPerOne = fmag f64Two32 * ((s.toNat + 1) * 2 ^ 1042) := by
    have hunits : unitsPerOne = 2 ^ 32 * 2 ^ 1042 := by rw [← pow_add, unitsPerOne_eq]
    calc fmag (toF (s.toNat + 1)) * unitsPerOne = (s.toNat + 1) * unitsPerOne * (2 ^ 32 * 2 ^ 1042) := by rw [hmag, ← hunits]
      _ = 2 ^ 32 * unitsPerOne * ((s.toNat + 1) * 2 ^ 1042) := by
        rw [Nat.mul_comm (s.toNat + 1), Nat.mul_mul_mul_comm, Nat.mul_comm unitsPerOne]
      _ = fmag f64Two32 * ((s.toNat + 1) * 2 ^ 1042) := by rw [fmag_two32]
  have hdiv : uniform s = fround false (fmag (toF (s.toNat + 1)) * unitsPerOne) (fmag f64Two32) := by
    rw [uniform, fdiv_of_finite hfin (by decide) hd.ne', hsign]
    rfl
  obtain ⟨hufin, humag⟩ := fround_scaled false hd (Nat.add_one_pos s.toNat) hlt (by norm_num) (by norm_num) hquot
  rw [hdiv]
  exact ⟨hufin, fsign_fround _ _ _, humag⟩

theorem fmag_uniform_mul (s : U32) : fmag (uniform s) * 2 ^ 32 = (s.toNat + 1) * unitsPerOne := by
  obtain ⟨-, -, hmag⟩ := uniform_exact s
  rw [hmag, Nat.mul_assoc, ← pow_add, unitsPerOne_eq]

theorem fmag_uniform_eq_unitsPerOne_iff (s : U32) : fmag (uniform s) = unitsPerOne ↔ s = 0xFFFFFFFF#32 := by
  have hmag := fmag_uniform_mul s
  constructor
  · intro hone
    rw [hone, Nat.mul_comm] at hmag
    have hs : 2 ^ 32 = s.toNat + 1 := Nat.eq_of_mul_eq_mul_right unitsPerOne_pos hmag
    exact BitVec.eq_of_toNat_eq (Nat.succ.inj hs).symm
  · rintro rfl
    have hs : (0xFFFFFFFF#32).toNat + 1 = 2 ^ 32 := by decide
    rw [hs, Nat.mul_comm] at hmag
    exact Nat.eq_of_mul_eq_mul_left (by norm_num) hmag

/-- Settles O55: conversion and division by `2^32` are exact, and `1.0` is determined by its sign and magnitude. -/
theorem uniformIsExact : Obligations.UniformIsExact := by
  intro s
  obtain ⟨hfin, hsign, -⟩ := uniform_exact s
  refine ⟨hfin, hsign, fmag_uniform_mul s, ?_⟩
  rw [← fmag_uniform_eq_unitsPerOne_iff, ← fmag_one]
  exact ⟨congrArg fmag, eq_of_fsign_fmag (y := f64One) hsign⟩

end Sys2Proof.Machine
end

section
/-! PROOFS. The sample stream and the noise commands (43_prng.md R220-R228). -/

namespace Sys2Proof.Machine

open Sys2Proof

/-! ### The stream -/

theorem lcg_eq_mod : lcg = fun x => BitVec.ofNat 32 ((x.toNat * 1664525 + 1013904223) % 2 ^ 32) := by
  funext x
  exact BitVec.eq_of_toNat_eq (by rw [lcg, BitVec.toNat_ofNat, BitVec.toNat_ofNat, Nat.mod_mod])

/-- The seed is updated twice per sample (43_prng.md R224). -/
theorem gauss_snd (s : U32) (n : Nat) : (gauss s n).2 = lcg^[2 * n] s := by
  induction n generalizing s with
  | zero => rfl
  | succ n ih =>
    rw [gauss, ih (lcg (lcg s))]
    exact (iterate_two_mul_succ lcg n 0 s).symm

/-- Sample `k` takes the uniforms of the states `2k + 1` and `2k + 2` updates from the seed (43_prng.md R223). -/
theorem getElem?_gauss {k n : Nat} (hk : k < n) (s : U32) :
    (gauss s n).1[k]? = some (boxMuller (uniform (lcg^[2 * k + 1] s)) (uniform (lcg^[2 * k + 2] s))) := by
  induction n generalizing k s with
  | zero => cases hk
  | succ n ih =>
    cases k with
    | zero => rfl
    | succ k =>
      rw [iterate_two_mul_succ lcg k 1, iterate_two_mul_succ lcg k 2, gauss, List.getElem?_cons_succ]
      exact ih (Nat.lt_of_succ_lt_succ hk) (lcg (lcg s))

/-- Settles O52: by induction on the samples, the update being `lcg`. -/
theorem gaussSamplesFollowTheLcg : Obligations.GaussSamplesFollowTheLcg := by
  intro s n next u
  have hnext : next = lcg := lcg_eq_mod.symm
  clear_value next
  subst hnext
  exact ⟨length_gauss s n, gauss_snd s n, fun k hk => getElem?_gauss hk s⟩

/-- Settles O53, by induction on the samples of the first part. -/
theorem gaussContinues : Obligations.GaussContinues := by
  intro s n1 n2
  induction n1 generalizing s with
  | zero => rw [Nat.zero_add]; rfl
  | succ n1 ih =>
    rw [Nat.add_right_comm]
    simp only [gauss, ih, List.cons_append]

/-! ### The commands -/

/-- The state in which a noise command leaves `s`: the samples from the generator state `s0` at DST, and the final state. -/
def gaussCompletion (s : State) (dst n : Nat) (s0 : U32) : State :=
  s.completeOk { writes := [(dst, (gauss s0 n).1)], r0 := n, r1 := 0, voiced := false, prng := some (gauss s0 n).2 }

theorem gaussCompletion_completedOk (s : State) (dst n : Nat) (s0 : U32) :
    State.CompletedOk s (gaussCompletion s dst n s0) dst (gauss s0 n).1 n 0 false (gauss s0 n).2 :=
  completedOk_window s dst _ n 0 false (some _)

section
variable {s : State} {dst n : Nat} (src : Nat) (hn : n ≠ 0) (hdst : dst + n ≤ s.dmemWords)
include hn hdst

theorem exec_noise : exec (.noise src dst n) s = .next (gaussCompletion s dst n (s.lat.arg.arg0.extractLsb' 0 32)) := by
  have harg : argumentInvalid (.noise src dst n) s.lat = false := by simpa [argumentInvalid] using hn
  have hrange : rangeInvalid s.dmemWords (.noise src dst n) s.lat = false := by simpa [rangeInvalid] using hdst
  rw [← ofNat_field_zero]
  exact exec_of_checks harg hrange rfl

theorem exec_noisec : exec (.noisec src dst n) s = .next (gaussCompletion s dst n s.lat.prng) := by
  have harg : argumentInvalid (.noisec src dst n) s.lat = false := by simpa [argumentInvalid] using hn
  have hrange : rangeInvalid s.dmemWords (.noisec src dst n) s.lat = false := by simpa [rangeInvalid] using hdst
  exact exec_of_checks harg hrange rfl

end

/-- Settles O25: both checks pass, and the effect is one window of samples. -/
theorem noiseCommandsComplete : Obligations.NoiseCommandsComplete := by
  intro s src dst n seed hn hdst
  exact ⟨⟨_, exec_noise src hn hdst, length_gauss seed n, gaussCompletion_completedOk s dst n seed⟩,
    ⟨_, exec_noisec src hn hdst, length_gauss _ n, gaussCompletion_completedOk s dst n _⟩⟩

/-- Two contiguous windows of one stream are one window. -/
theorem gaussCompletion_continues {s u : State} {dst n1 : Nat} {s0 : U32}
    (hmem : u.dmem = (gaussCompletion s dst n1 s0).dmem) (n2 : Nat) :
    (gaussCompletion u (dst + n1) n2 (gauss s0 n1).2).dmem = (gaussCompletion s dst (n1 + n2) s0).dmem ∧
      (gaussCompletion u (dst + n1) n2 (gauss s0 n1).2).prng = (gaussCompletion s dst (n1 + n2) s0).prng := by
  simp [gaussCompletion, hmem, gaussContinues s0 n1 n2, Mem.writeWords_append]

/-- Settles O54: NOISEC goes on from NOISE's DMEM, final state and DST, so that it ends in the memory of the longer NOISE. -/
theorem noisecContinuesNoise : Obligations.NoisecContinuesNoise := by
  intro s u src src' dst n1 n2 hn1 hn2 hdst hu
  obtain ⟨hmem, hprng, hwords⟩ := hu _ (exec_noise src hn1 (by omega))
  have hwords : u.dmemWords = s.dmemWords := hwords
  have hprng : u.lat.prng = (gauss (s.lat.arg.arg0.extractLsb' 0 32) n1).2 := hprng
  obtain ⟨hdmem, hstate⟩ := gaussCompletion_continues hmem n2
  refine ⟨_, _, exec_noisec src' hn2 (by omega), exec_noise src (by omega) hdst, ?_⟩
  rw [hprng, hdmem, hstate]
  obtain ⟨hstored, -, -⟩ := gaussCompletion_completedOk s dst (n1 + n2) (s.lat.arg.arg0.extractLsb' 0 32)
  exact ⟨rfl, fun _ => rfl, fun j hj => hstored j (by rwa [length_gauss])⟩

end Sys2Proof.Machine
end

section
/-! PROOFS. Acceptance, and the core's turn on a busy and on an idle block (60_exceptions.md R241, R242, R262). -/

namespace Sys2Proof.Machine

open Sys2Proof

theorem complete_of_cmd {s : State} {i : Instr} (h : decode s.lat.cmd = .cmd i) : complete s = exec i s := by rw [complete, h]

/-- Settles O5: the core's turn completes the latched command, which taking the turn off the schedule does not change. -/
theorem stepRunsDecodedCommand : Obligations.StepRunsDecodedCommand := by
  refine fun s i hb hi => ⟨fun hs => ?_, fun rest hs => ?_⟩
  · exact (step_of_coreMoves (.inl ⟨hs, rfl⟩) hb).trans (complete_of_cmd hi)
  · exact (step_of_coreMoves (.inr ⟨rest, hs, rfl⟩) hb).trans (complete_of_cmd hi)

theorem step_of_coreMoves_idle {s u : State} (hu : CoreMoves s u) (hb : s.busy = false) : step s = .next u := by
  obtain ⟨hs, rfl⟩ | ⟨rest, hs, rfl⟩ := hu <;> simp [step, hs, handle, coreTurn, hb]

/-- Settles O8: the core's turn leaves an idle block as it is. -/
theorem idleBlockChangesNothing : Obligations.IdleBlockChangesNothing :=
  fun _ hb => ⟨fun hs => step_of_coreMoves_idle (.inl ⟨hs, rfl⟩) hb, fun rest hs => step_of_coreMoves_idle (.inr ⟨rest, hs, rfl⟩) hb⟩

/-- Settles O15: the CMD write of an idle block is `State.accept`. -/
theorem cmdWriteWhileIdleAccepts : Obligations.CmdWriteWhileIdleAccepts := fun _ _ w hoff hb => hwrite_cmd_of_idle w hoff hb

end Sys2Proof.Machine
end

section
/-! PROOFS. Which transactions are answered with ERROR (20_memory.md R92-R101; 60_exceptions.md R250, R251). -/

namespace Sys2Proof.Machine

open Sys2Proof

theorem answer_ne_answer {s t : State} {r r' : Reply} (h : r ≠ r') : s.answer r ≠ t.answer r' :=
  fun heq => h (Option.some.inj (congrArg State.reply heq))

/-- The registers lie below the DMEM window. -/
theorem not_window_of_offsetOf {off : BitVec 20} {r : Reg} (h : off.toNat = offsetOf r) : ¬ 0x80000 ≤ off.toNat := by
  rw [h]
  cases r <;> decide

theorem offsetOf_eq_prngState_iff (r : Reg) : offsetOf r = 0x58 ↔ r = .prngState := by cases r <;> decide

/-- A read is turned away when it addresses nothing, or DMEM while BUSY. -/
theorem hread_error_iff (s : State) (size : Nat) (off : BitVec 20) :
    hread s size off = .next (s.answer (.read 0 .error)) ↔
      target s.dmemWords size off = none ∨ (s.busy = true ∧ 0x80000 ≤ off.toNat) := by
  have hne (v : Word) : s.answer (.read v .okay) ≠ s.answer (.read 0 .error) := answer_ne_answer (by simp)
  unfold hread
  cases ht : target s.dmemWords size off with
  | none => simp
  | some T =>
    cases T with
    | reg r =>
      obtain ⟨-, hoff⟩ := target_eq_reg ht
      have hlow := not_window_of_offsetOf hoff
      simpa [hlow] using hne (s.readReg r)
    | dmem i =>
      obtain ⟨-, hoff, -⟩ := target_eq_dmem ht
      have hhigh : 0x80000 ≤ off.toNat := by omega
      cases hb : s.busy with
      | true => simp [hhigh]
      | false =>
        cases hw : s.dmem.readWord i with
        | none => simp [hw]
        | some v => simpa [hw] using hne v

/-- A write is turned away when it addresses nothing, or DMEM or PRNG_STATE while BUSY. -/
theorem hwrite_error_iff (s : State) (size : Nat) (off : BitVec 20) (v : Word) :
    hwrite s size off v = .next (s.answer (.write .error)) ↔
      target s.dmemWords size off = none ∨ (s.busy = true ∧ (0x80000 ≤ off.toNat ∨ off.toNat = 0x58)) := by
  have hne (t : State) : t.answer (.write .okay) ≠ s.answer (.write .error) := answer_ne_answer (by decide)
  unfold hwrite
  cases ht : target s.dmemWords size off with
  | none => simp
  | some T =>
    cases T with
    | reg r =>
      obtain ⟨-, hoff⟩ := target_eq_reg ht
      have hlow := not_window_of_offsetOf hoff
      have hprng : off.toNat = 0x58 ↔ r = .prngState := by rw [hoff, offsetOf_eq_prngState_iff]
      by_cases hclosed : s.busy = true ∧ r = .prngState
      · simp [hclosed, hprng]
      · simp only [hclosed, hlow, hprng, hne, if_false, Host.Outcome.next.injEq, reduceCtorEq, false_or]
    | dmem i =>
      obtain ⟨-, hoff, -⟩ := target_eq_dmem ht
      have hhigh : 0x80000 ≤ off.toNat := by omega
      cases hb : s.busy with
      | true => simp [hhigh]
      | false => simp [hne]

/-- Settles O12: what addresses nothing is what `target_eq_none_iff` lists, and the CMD write while BUSY is not among the rest. -/
theorem errorResponseExactlyWhen : Obligations.ErrorResponseExactlyWhen := by
  intro s size off v unmapped shape
  have hshape : target s.dmemWords size off = none ↔ shape := target_eq_none_iff
  refine ⟨?_, ?_, fun hb hoff => ?_⟩
  · rw [← hshape]
    exact hread_error_iff s size off
  · rw [← hshape]
    exact hwrite_error_iff s size off v
  · rw [hwrite_reg_okay v .cmd hoff (by decide), State.writeReg, writeCmd_of_busy hb]

end Sys2Proof.Machine
end

section
/-! PROOFS. The completion codes: which check each reports, and what an error completion leaves (60_exceptions.md R243-R248). -/

namespace Sys2Proof.Machine

open Sys2Proof

/-! ### ARGUMENT and RANGE -/

section
variable {i : Instr} {s t : State}

theorem exec_of_argumentInvalid (ha : argumentInvalid i s.lat = true) : exec i s = .next (s.completedWith 0x03#8) := by
  rw [exec_eq]
  exact if_pos ha

theorem exec_of_rangeInvalid (ha : argumentInvalid i s.lat = false) (hr : rangeInvalid s.dmemWords i s.lat = true) :
    exec i s = .next (s.completedWith 0x04#8) := by
  rw [exec_eq]
  exact (if_neg (by simp [ha])).trans (if_pos hr)

/-- The code a command reports, check by check (60_exceptions.md R243, R247). -/
theorem exec_errcode (h : exec i s = .next t) :
    t.errcode =
      if argumentInvalid i s.lat then 0x03#8 else if rangeInvalid s.dmemWords i s.lat then 0x04#8 else 0x00#8 := by
  obtain ⟨ha, rfl⟩ | ⟨ha, hr, rfl⟩ | ⟨ha, hr, e, -, rfl⟩ := exec_next h
  · simp [ha, codeBits]
  · simp [ha, hr, codeBits]
  · simp [ha, hr, codeBits]

theorem argumentInvalid_of_errcode (h : exec i s = .next t) (hc : t.errcode = 0x03#8) : argumentInvalid i s.lat = true := by
  by_contra ha
  rw [exec_errcode h, if_neg ha] at hc
  split at hc <;> simp at hc

theorem rangeInvalid_of_errcode (h : exec i s = .next t) (hc : t.errcode = 0x04#8) : rangeInvalid s.dmemWords i s.lat = true := by
  by_contra hr
  rw [exec_errcode h, if_neg hr] at hc
  split at hc <;> simp at hc

end

theorem finitePositive_eq_false_iff (x : F64) : finitePositive x = false ↔ ¬ (isFinite x = true ∧ fgt x 0#64 = true) := by
  rw [← Bool.not_eq_true, finitePositive, Bool.and_eq_true_iff, f64Zero]

/-- Settles O26: `argumentInvalid` is the table of R245, row by row. -/
theorem argumentErrorExactlyWhen : Obligations.ArgumentErrorExactlyWhen := by
  intro i s a malformed
  have hrow : argumentInvalid i s.lat = true ↔ malformed := by
    cases i with
    | lpc src dst n => simp [argumentInvalid, argU64, malformed, a]
    | reson src dst n => simp [argumentInvalid, argF64, finitePositive_eq_false_iff, malformed, a]
    | pconv src dst lp => simp [argumentInvalid, argU64, malformed, a]
    | yin src dst n => simp [argumentInvalid, argF64, f64Zero, finitePositive_eq_false_iff, or_assoc, malformed, a]
    | noise src dst n => simp [argumentInvalid, malformed]
    | noisec src dst n => simp [argumentInvalid, malformed]
  exact ⟨fun hm => exec_of_argumentInvalid (hrow.2 hm), fun t h hc => hrow.1 (argumentInvalid_of_errcode h hc)⟩

/-- Settles O27: `rangeInvalid` is the table of R246, row by row. -/
theorem rangeErrorExactlyWhen : Obligations.RangeErrorExactlyWhen := by
  intro i s a W outside
  have hrow : rangeInvalid s.dmemWords i s.lat = true ↔ outside := by
    cases i with
    | lpc src dst n => simp [rangeInvalid, argU64, outside, a, W]
    | reson src dst n => simp [rangeInvalid, outside, W]
    | pconv src dst lp => simp [rangeInvalid, argU64, or_assoc, outside, a, W]
    | yin src dst n => simp [rangeInvalid, outside, W]
    | noise src dst n => simp [rangeInvalid, outside, W]
    | noisec src dst n => simp [rangeInvalid, outside, W]
  exact ⟨fun ha ho => exec_of_rangeInvalid ha (hrow.2 ho), fun t h hc => hrow.1 (rangeInvalid_of_errcode h hc)⟩

/-! ### Error completions -/

/-- A completion with a nonzero code is `completedWith` that code. -/
theorem complete_eq_completedWith {s t : State} (h : complete s = .next t) (hc : t.errcode ≠ 0x00#8) :
    t = s.completedWith t.errcode := by
  obtain ⟨c, -, rfl⟩ | ⟨i, e, -, -, -, -, rfl⟩ := complete_next h
  · rfl
  · exact absurd rfl hc

/-- Settles O28: `completedWith` is the list of R248. -/
theorem errorCompletionEffects : Obligations.ErrorCompletionEffects := fun _ _ => complete_eq_completedWith

/-- Settles O29: the decoder's two checks come before those of `exec`. -/
theorem firstFailingCheckIsReported : Obligations.FirstFailingCheckIsReported := by
  intro s t h code
  have hcode : t.errcode = code := by
    cases hd : decode s.lat.cmd with
    | illegal =>
      cases (complete_of_illegal hd).symm.trans h
      simp [code, hd, State.completedWith]
    | reserved =>
      cases (complete_of_reserved hd).symm.trans h
      simp [code, hd, State.completedWith]
    | cmd i => simpa [code, hd] using exec_errcode ((complete_of_cmd hd).symm.trans h)
  exact ⟨hcode, fun hne => hcode ▸ complete_eq_completedWith h (hcode ▸ hne)⟩

end Sys2Proof.Machine
end

section
/-! PROOFS. Reset: what the reset state and the reset input leave (70_reset_and_hazards.md R270-R272; log entries 3, 5 and 6). -/

namespace Sys2Proof.Machine

open Sys2Proof

/-- Every word of an empty DMEM is unwritten (10_state.md R42). -/
@[simp] theorem Mem.readWord_nil (i : Nat) : Mem.readWord [] i = none := rfl

/-- Settles O9: the fields of `State.reset`, its DMEM empty, and the constants its registers read as. -/
theorem resetLeavesTheSpecValues : Obligations.ResetLeavesTheSpecValues :=
  ⟨rfl, rfl, rfl, rfl, rfl, rfl, rfl, rfl, rfl, rfl, rfl, rfl, rfl, rfl, rfl, Mem.readWord_nil, rfl,
    show idWord = _ from rfl, show hwcfgWord Config.referenceDmemWords = _ by decide, show State.reset.status = _ by decide⟩

/-- Settles O10: a step that takes the reset input ends in `State.applyReset`, whatever ran before. -/
theorem resetInputAbandonsTheCommand : Obligations.ResetInputAbandonsTheCommand :=
  fun _ _ h => ⟨_, step_of_rst h, rfl, rfl, rfl, rfl, rfl, rfl, rfl, rfl, rfl, rfl, rfl, rfl, Mem.readWord_nil, rfl, rfl, rfl⟩

/-- Settles O39: DMEM is empty, and the other clauses are about the values of the fields. -/
theorem invariantHoldsAtReset : Obligations.InvariantHoldsAtReset where
  legalWords := by decide
  memory := Mem.wf_nil
  whole _ hread := absurd hread Bool.false_ne_true
  status := by unfold State.StatusCoherent; decide
  result := Nat.zero_le _
  latch hbusy := absurd hbusy Bool.false_ne_true

end Sys2Proof.Machine
end

section
/-! PROOFS. Completion is eventual (70_reset_and_hazards.md R285; log entry 7). -/

namespace Sys2Proof.Machine

open Sys2Proof

/-! ### Runs -/

section
variable {M : Host.Core}

theorem coreRun_succ_of_step {s u : M.State} (h : M.step s = .next u) (k : Nat) : M.run (k + 1) s = M.run k u := by
  simp only [Host.Core.run, h]

theorem coreRun_one (s : M.State) : M.run 1 s = M.step s := by
  rw [Host.Core.run]
  cases M.step s <;> rfl

end

theorem run_succ_of_step {s u : State} (h : step s = .next u) (k : Nat) : run (k + 1) s = run k u :=
  coreRun_succ_of_step (M := Sys2Proof.core) h k

theorem run_one (s : State) : run 1 s = step s := coreRun_one (M := Sys2Proof.core) s

/-! ### The end of a completion -/

/-- The two ways a running command ends: a completed, idle block, or a UNINIT fault. -/
def CompletedOrUninit (o : Host.Outcome State Fault Refusal) : Prop :=
  (∃ t, o = .next t ∧ t.busy = false ∧ t.done = true) ∨ o = .fault .uninit

theorem complete_ne_refused (s : State) (r : Refusal) : complete s ≠ .refused r := by
  unfold complete
  split
  · simp
  · simp
  · exact exec_ne_refused _ s r

theorem completedOrUninit_complete (s : State) : CompletedOrUninit (complete s) := by
  cases h : complete s with
  | next t =>
    obtain ⟨hdone, hbusy, -⟩ := complete_flags h
    exact .inl ⟨t, rfl, hbusy, hdone⟩
  | fault f => exact .inr rfl
  | refused r => exact absurd h (complete_ne_refused s r)

/-! ### Transactions of a running command -/

/-- While BUSY no read reaches DMEM, so none stops the run (20_memory.md R101). -/
theorem hread_completes_of_busy {s : State} (hb : s.busy = true) (size : Nat) (off : BitVec 20) :
    ∃ r, hread s size off = .next (s.answer r) := by
  unfold hread
  split
  · exact ⟨_, rfl⟩
  · exact ⟨_, rfl⟩
  · exact ⟨_, if_pos hb⟩

theorem writeReg_schedule (s : State) (v : Word) (r : Reg) : (s.writeReg v r).schedule = s.schedule := by
  cases r with
  | cmd =>
    rw [State.writeReg, State.writeCmd]
    split <;> rfl
  | id | hwcfg | ctrl | status | arg0 | arg1 | arg2 | arg3 | result0 | result1 | prngState => rfl

theorem hwrite_schedule {s t : State} {size : Nat} {off : BitVec 20} {v : Word} (h : hwrite s size off v = .next t) :
    t.schedule = s.schedule := by
  obtain rfl | ⟨r, -, -, -, rfl⟩ | ⟨i, -, -, -, -, rfl⟩ := hwrite_next h
  · rfl
  · exact writeReg_schedule s v r
  · rfl

/-- A host transaction leaves the command running and the later inputs to come. -/
theorem handle_of_busy {s : State} {e : Event} (hb : s.busy = true) (hturn : e ≠ .coreTurn) (hrst : e ≠ .rst) :
    ∃ u, handle e s = .next u ∧ u.busy = true ∧ u.schedule = s.schedule := by
  cases e with
  | hread size off =>
    obtain ⟨r, h⟩ := hread_completes_of_busy hb size off
    exact ⟨_, h, hb, rfl⟩
  | hwrite size off v =>
    obtain ⟨u, h⟩ := hwrite_completes s size off v
    have hframe : HostChangesOnly s u := hostChangesOnly_hwrite hb h
    have hbusy : u.busy = true := by rw [hframe, hb]
    exact ⟨u, h, hbusy, hwrite_schedule h⟩
  | coreTurn => exact absurd rfl hturn
  | rst => exact absurd rfl hrst

/-! ### The bound -/

theorem completedOrUninit_run_one {s u : State} (hu : CoreMoves s u) (hb : s.busy = true) : CompletedOrUninit (run 1 s) := by
  rw [run_one, step_of_coreMoves hu hb]
  exact completedOrUninit_complete u

/-- By induction on the inputs to come: each is a transaction the command outlasts, or the turn that completes it; with none left the
core moves. -/
theorem exists_run_completedOrUninit {l : List Event} {s : State} (hs : s.schedule = l) (hb : s.busy = true) (hrst : Event.rst ∉ l) :
    ∃ k, k ≤ l.length + 1 ∧ CompletedOrUninit (run k s) := by
  induction l generalizing s with
  | nil => exact ⟨1, Nat.le_refl 1, completedOrUninit_run_one (.inl ⟨hs, rfl⟩) hb⟩
  | cons e rest ih =>
    obtain ⟨he, hrest⟩ := List.ne_and_not_mem_of_not_mem_cons hrst
    by_cases hturn : e = .coreTurn
    · subst hturn
      exact ⟨1, Nat.le_add_left 1 _, completedOrUninit_run_one (.inr ⟨rest, hs, rfl⟩) hb⟩
    · obtain ⟨u, hu, hbusy, hsch⟩ := handle_of_busy (s := { s with schedule := rest }) hb hturn he.symm
      obtain ⟨k, hk, hrun⟩ := ih hsch hbusy hrest
      refine ⟨k + 1, Nat.succ_le_succ hk, ?_⟩
      rwa [run_succ_of_step ((step_of_schedule hs).trans hu)]

/-- Settles O41, for the schedule of the state itself. -/
theorem completionIsEventual : Obligations.CompletionIsEventual := fun _ hb hrst => exists_run_completedOrUninit rfl hb hrst

end Sys2Proof.Machine
end
